-- ==== Sys2Proof/Config.lean ====
section
/-! DEFINITION. The implementation parameters of spec/00_scope.md rule R5: the constants the spec fixes or decides, the
widths that follow from the OPEN parameter `LEN_W`, and the weight table of the one family (`W_IDENT`, `W_DIST`), which
the spec leaves OPEN too. Every definition that depends on an OPEN parameter takes it as an argument. -/

namespace Sys2Proof

/-- The default of `LEN_W`, R5 (spec/92_eei_decisions.md D13): the width of a byte length and of `ENC_COUNT`. `LEN_W`
itself is OPEN, an argument of the model (log entry 1). -/
abbrev Config.defaultLenW : Nat := 64

/-- `POS_W` = `LEN_W` + 2, R5 and R18. -/
abbrev Config.posW (lenW : Nat) : Nat := lenW + 2

/-- `CMD_W` = 8 + 4·`LEN_W`, R5 and R68. -/
abbrev Config.cmdW (lenW : Nat) : Nat := 8 + 4 * lenW

/-- What a register of `lenW` bits holds of a count that needs more bits; the spec gives no value, so
nothing is known of it (DESIGN CHOICE, log entry 13). -/
opaque Config.freeCount (lenW count : Nat) : Nat

/-- `THRESHOLD`, R5: fewest shares that decode. -/
abbrev Config.threshold : Nat := 3

/-- `NZ`, R5: entries of the zero family; the zero family's draw range. -/
abbrev Config.nz : Nat := 6

/-- `NPERM`, R5: the permutation draw range. -/
abbrev Config.nperm : Nat := 24

/-- The weight table of the one family (R25, R63): the part of the Code Catalog ROM that is an OPEN parameter (R5).
It is plain data of `State` that no operation writes, so that a statement about every state is a statement about
every weighting (log entry 2). -/
structure Weights where
  /-- `W_IDENT`: weight of each of the four all-identical entries. -/
  wIdent : Nat
  /-- `W_DIST`: weight of the all-distinct entry. -/
  wDist : Nat
deriving DecidableEq, Repr

/-- `NO` = 4·`W_IDENT` + `W_DIST`, R5 and R64: the size of the one family's draw range. -/
def Weights.no (w : Weights) : Nat := 4 * w.wIdent + w.wDist

/-- The constraints R5 puts on the OPEN weights. -/
abbrev Weights.admissible (w : Weights) : Prop := 1 ≤ w.wIdent ∧ 1 ≤ w.wDist ∧ w.no ≤ 16

/-- The defaults of R5 (spec/92_eei_decisions.md D6). -/
def Config.defaultWeights : Weights := ⟨1, 8⟩

end Sys2Proof
end

