-- ==== Sys2Proof/Word.lean ====
section
/-! DEFINITION. The word types of the hardware and the two fixed-size groups its rules speak of: four of a kind
(one per share or lane, spec/00_scope.md section 5) and eight of a kind (one per bit of a source byte, R67). The values
whose width is `LEN_W`, `POS_W` or `CMD_W`, and so an argument of the model, are natural numbers that those widths bound
(log entry 1). -/

namespace Sys2Proof

/-- A byte of a stream, R40. -/
abbrev Byte := BitVec 8

/-- A symbol, R60. -/
abbrev Symbol := BitVec 2

/-- A share word, R44: two consecutive bytes of one share, the first in bits 15 to 8. -/
abbrev ShareWord := BitVec 16

/-- Four like things, element `j` belonging to share or lane `j`. -/
structure Quad (α : Type) where
  l0 : α
  l1 : α
  l2 : α
  l3 : α
deriving DecidableEq, Repr

/-- Element `j` of an ordered 4-tuple. -/
def Quad.get {α : Type} (q : Quad α) (j : Fin 4) : α :=
  match j with
  | 0 => q.l0
  | 1 => q.l1
  | 2 => q.l2
  | 3 => q.l3

/-- The 4-tuple whose element `j` is `f j`. -/
def Quad.ofFn {α : Type} (f : Fin 4 → α) : Quad α := ⟨f 0, f 1, f 2, f 3⟩

/-- The four elements in order. -/
def Quad.toList {α : Type} (q : Quad α) : List α := [q.l0, q.l1, q.l2, q.l3]

/-- Eight like things, element `k` belonging to the `k`-th bit of a source byte in processing order. -/
structure Octet (α : Type) where
  k0 : α
  k1 : α
  k2 : α
  k3 : α
  k4 : α
  k5 : α
  k6 : α
  k7 : α
deriving DecidableEq, Repr

/-- Element `k` of an octet. -/
def Octet.get {α : Type} (o : Octet α) (k : Fin 8) : α :=
  match k with
  | 0 => o.k0
  | 1 => o.k1
  | 2 => o.k2
  | 3 => o.k3
  | 4 => o.k4
  | 5 => o.k5
  | 6 => o.k6
  | 7 => o.k7

/-- The octet whose element `k` is `f k`. -/
def Octet.ofFn {α : Type} (f : Fin 8 → α) : Octet α := ⟨f 0, f 1, f 2, f 3, f 4, f 5, f 6, f 7⟩

/-- The eight elements in processing order. -/
def Octet.toList {α : Type} (o : Octet α) : List α := [o.k0, o.k1, o.k2, o.k3, o.k4, o.k5, o.k6, o.k7]

/-- The four lanes in ascending order. -/
def allLanes : List (Fin 4) := [0, 1, 2, 3]

/-- The eight columns of a share word in position order. -/
def allColumns : List (Fin 8) := [0, 1, 2, 3, 4, 5, 6, 7]

end Sys2Proof
end

