-- ==== Sys2Proof/Syntax.lean ====
section
/-! DEFINITION. The nine operations of CORE (spec/30_encoding.md rule R73), one constructor per row of
spec/opcode_table.json, with their operands as spec/30_encoding.md rules R69 to R72 give them. -/

namespace Sys2Proof

/-- A draw pair (R9, R67): the entry draw `e` and the permutation draw `p` of one source bit. Both are natural
numbers that select a table row (R64, R66), not words. -/
structure DrawPair where
  e : Nat
  p : Nat
deriving DecidableEq, Repr

/-- The commands of CORE's command port. -/
inductive Instr where
  /-- `ENC.NOP`, format N, R140. -/
  | encNop
  /-- `ENC.START`, format N, R94. -/
  | encStart
  /-- `ENC.BYTE d, (e0,p0) … (e7,p7)`, format B, R95: pair `k` belongs to bit `d[7-k]`. -/
  | encByte (d : Byte) (draws : Octet DrawPair)
  /-- `ENC.END`, format N, R96. -/
  | encEnd
  /-- `ENC.ABORT`, format N, R97. -/
  | encAbort
  /-- `DEC.NOP`, format N, R140. -/
  | decNop
  /-- `DEC.START mask, len0, len1, len2, len3`, format S, R116. -/
  | decStart (mask : BitVec 4) (len : Quad Nat)
  /-- `DEC.WORD w0, w1, w2, w3`, format W, R117. -/
  | decWord (w : Quad ShareWord)
  /-- `DEC.ABORT`, format N, R118. -/
  | decAbort
deriving DecidableEq, Repr

end Sys2Proof
end

