-- ==== Sys2Proof/WellFormed.lean ====
section
/-! DEFINITION. Which terms of `Instr` a command word can carry: every draw must fit its field of the draw pair
(spec/30_encoding.md rule R67: four bits for `e`, five for `p`) and every length its field of `LEN_W` bits (R71). Every
other operand has its field's own width.
Being well-formed is not being in range: a draw that fits its field may still be rejected (R95). -/

namespace Sys2Proof

/-- The entry draw fits `dp[3:0]` and the permutation draw fits `dp[8:4]` (R67). -/
def DrawPair.fits (dp : DrawPair) : Bool := dp.e < 16 && dp.p < 32

/-- The instruction is one that a command word can carry, with length fields of `lenW` bits. -/
def Instr.wellFormed (lenW : Nat) (i : Instr) : Bool :=
  match i with
  | .encNop => true
  | .encStart => true
  | .encByte _ draws => draws.toList.all DrawPair.fits
  | .encEnd => true
  | .encAbort => true
  | .decNop => true
  | .decStart _ len => len.toList.all fun l => l < 2 ^ lenW
  | .decWord _ => true
  | .decAbort => true

end Sys2Proof
end

