-- ==== Sys2Proof/Decode.lean ====
section
/-! DEFINITION. The decoder of the command word (spec/30_encoding.md rules R68 to R75), total on every word, and the
encoder written from the same tables. Both take `LEN_W`, on which the length fields depend (R71). -/

namespace Sys2Proof

/-- Why a command word carries no command. -/
inductive DecodeError where
  /-- `cmd[3:0]` is one of the reserved codes of R74; the command port rejects the word (R141). -/
  | reservedCode (code : BitVec 4)
deriving DecidableEq, Repr

/-- The field of `n` bits whose least significant bit is bit `lo` of the command word. -/
def field (cmd : Nat) (lo n : Nat) : BitVec n := BitVec.ofNat n (cmd >>> lo)

/-- Draw pair `k` of format B (R70): `e` at `[12+9k+3 : 12+9k]`, `p` at `[12+9k+8 : 12+9k+4]`. -/
def drawField (cmd : Nat) (k : Fin 8) : DrawPair :=
  ⟨(field cmd (12 + 9 * k.val) 4).toNat, (field cmd (12 + 9 * k.val + 4) 5).toNat⟩

/-- Length field `j` of format S (R71): `[8+LEN_W(j+1)-1 : 8+LEN_W·j]`. -/
def lenField (lenW cmd : Nat) (j : Fin 4) : Nat := (cmd >>> (8 + lenW * j.val)) % 2 ^ lenW

/-- Share word field `j` of format W (R72): `[4+16j+15 : 4+16j]`. -/
def wordField (cmd : Nat) (j : Fin 4) : ShareWord := field cmd (4 + 16 * j.val) 16

/-- The opcode map of R73 on `cmd[3:0]`, the codes of R74 rejected by name. -/
def decode (lenW cmd : Nat) : Except DecodeError Instr :=
  match (field cmd 0 4).toNat with
  | 0x0 => .ok .encNop
  | 0x1 => .ok .encStart
  | 0x2 => .ok (.encByte (field cmd 4 8) (Octet.ofFn (drawField cmd)))
  | 0x3 => .ok .encEnd
  | 0x4 => .ok .encAbort
  | 0x8 => .ok .decNop
  | 0x9 => .ok (.decStart (field cmd 4 4) (Quad.ofFn (lenField lenW cmd)))
  | 0xA => .ok (.decWord (Quad.ofFn (wordField cmd)))
  | 0xC => .ok .decAbort
  | _ => .error (.reservedCode (field cmd 0 4))

/-- The code `cmd[3:0]` of each operation (R73). -/
def opcode (i : Instr) : BitVec 4 :=
  match i with
  | .encNop => 0x0
  | .encStart => 0x1
  | .encByte _ _ => 0x2
  | .encEnd => 0x3
  | .encAbort => 0x4
  | .decNop => 0x8
  | .decStart _ _ => 0x9
  | .decWord _ => 0xA
  | .decAbort => 0xC

/-- The nine bits of a draw pair (R67): `dp[8:4]` is `p`, `dp[3:0]` is `e`. -/
def drawBits (dp : DrawPair) : BitVec 9 := BitVec.ofNat 5 dp.p ++ BitVec.ofNat 4 dp.e

/-- The operands of format B (R70), `cmd[83:4]`. -/
def byteOperands (d : Byte) (x : Octet DrawPair) : BitVec 80 :=
  drawBits x.k7 ++ drawBits x.k6 ++ drawBits x.k5 ++ drawBits x.k4 ++ drawBits x.k3 ++ drawBits x.k2
    ++ drawBits x.k1 ++ drawBits x.k0 ++ d

/-- The operands of format S (R71), `cmd[CMD_W-1:4]`: the mask, and above it the lengths, `len[0]` lowest. -/
def startOperands (lenW : Nat) (mask : BitVec 4) (len : Quad Nat) : Nat :=
  mask.toNat + 2 ^ 4 * (len.l0 + 2 ^ lenW * (len.l1 + 2 ^ lenW * (len.l2 + 2 ^ lenW * len.l3)))

/-- The operands of format W (R72), `cmd[67:4]`. -/
def wordOperands (w : Quad ShareWord) : BitVec 64 := w.l3 ++ w.l2 ++ w.l1 ++ w.l0

/-- The operand bits of each operation, from `cmd[4]` on (R69 to R72), every ignored bit 0 (R79). -/
def operandBits (lenW : Nat) (i : Instr) : Nat :=
  match i with
  | .encByte d x => (byteOperands d x).toNat
  | .decStart mask len => startOperands lenW mask len
  | .decWord w => (wordOperands w).toNat
  | .encNop => 0
  | .encStart => 0
  | .encEnd => 0
  | .encAbort => 0
  | .decNop => 0
  | .decAbort => 0

/-- The command word of an instruction (R68, R79). -/
def encode (lenW : Nat) (i : Instr) : Nat := 2 ^ 4 * operandBits lenW i + (opcode i).toNat

/-- How many low bits of the word the operation's format reads (R69: 4; R70: 84; R71: 8 + 4·`LEN_W`; R72:
68). -/
def usedBits (lenW : Nat) (i : Instr) : Nat :=
  match i with
  | .encByte _ _ => 84
  | .decStart _ _ => Config.cmdW lenW
  | .decWord _ => 68
  | .encNop => 4
  | .encStart => 4
  | .encEnd => 4
  | .encAbort => 4
  | .decNop => 4
  | .decAbort => 4

/-- The command word whose low `nbits` bits are those of `w` and whose other bits are 0. A command is one word on the
command port (R68), so the table's bit numbers are the word's own. -/
def tableWord (nbits w : Nat) : Nat := w % 2 ^ nbits

/-- What the decoder reads from the word of `tableWord`, with the default `LEN_W`, for which the table gives every row
its 264 bits. -/
def decodeTableWord (nbits w : Nat) : Option Instr :=
  match decode Config.defaultLenW (tableWord nbits w) with
  | .ok i => some i
  | .error _ => none

end Sys2Proof
end

