-- ==== Sys2Proof/Machine/State.lean ====
section
/-! DEFINITION. The state of CORE as plain data (spec/10_state.md), the machine right after reset, and the reasons a
step can stop. A register whose width depends on the OPEN `LEN_W` (R5) is a natural number: the operations on it
(Ops.lean) wrap or narrow at that width, and that it fits its width is part of the invariant (log entry 1). -/

namespace Sys2Proof.Machine

/-- Invocation states of a unit (spec/30_encoding.md R76). `fault` is a value of `DEC_STATE` only: that `ENC_STATE`
never holds it is an invariant of the machine (R11, R33), not a fact of this type. -/
inductive UnitState where
  | idle
  | run
  | done
  | fault
deriving DecidableEq, Repr

/-- The 2-bit code of an invocation state (R76). -/
def UnitState.code (u : UnitState) : BitVec 2 :=
  match u with
  | .idle => 0
  | .run => 1
  | .done => 2
  | .fault => 3

/-- Error names (R77). The codes 1 and 2 are the host's and no rule produces them (R155); the codes 6 and 7 are
reserved and have no name. -/
inductive ErrorCode where
  | none
  | sourceNotFound
  | sinkCollision
  | insufficientShares
  | lengthMismatch
  | corruptedInput
deriving DecidableEq, Repr

/-- The 3-bit code of an error name (R77). -/
def ErrorCode.code (e : ErrorCode) : BitVec 3 :=
  match e with
  | .none => 0
  | .sourceNotFound => 1
  | .sinkCollision => 2
  | .insufficientShares => 3
  | .lengthMismatch => 4
  | .corruptedInput => 5

/-- The encoder's datapath registers (R13): transient inside one `ENC.BYTE`, 0 at every operation boundary. -/
structure EncDatapath where
  /-- `ENC_SR`: the source byte being serialised, bit 7 first. -/
  sr : Byte
  /-- `ENC_K`: index of the bit being encoded. -/
  k : BitVec 3
  /-- `ENC_PK0` to `ENC_PK3`: the symbol packers. -/
  pk : Quad ShareWord
deriving DecidableEq, Repr

/-- Every encoder datapath register 0 (R13, R31). -/
def EncDatapath.zero : EncDatapath := ⟨0, 0, ⟨0, 0, 0, 0⟩⟩

/-- The decoder's datapath registers (R24): transient inside one `DEC.WORD`, 0 at every operation boundary. -/
structure DecDatapath where
  /-- `DEC_LN0` to `DEC_LN3`: the share word of each lane. -/
  ln : Quad ShareWord
  /-- `DEC_K`: index of the position inside the word. -/
  k : BitVec 3
  /-- `DEC_ACC`: the bit reconstructor's accumulator, filled from bit 7. -/
  acc : Byte
deriving DecidableEq, Repr

/-- Every decoder datapath register 0 (R24, R31). -/
def DecDatapath.zero : DecDatapath := ⟨⟨0, 0, 0, 0⟩, 0, 0⟩

/-- The registers of the unit `ENC` (R10 to R13). -/
structure EncRegs where
  /-- `ENC_STATE` (R11). -/
  state : UnitState
  /-- `ENC_COUNT` (R12), `LEN_W` bits. -/
  count : Nat
  /-- `ENC_SR`, `ENC_K`, `ENC_PK0` to `ENC_PK3` (R13). -/
  dp : EncDatapath
deriving DecidableEq, Repr

/-- Every encoder register at its reset value (R31). -/
def EncRegs.zero : EncRegs := ⟨.idle, 0, EncDatapath.zero⟩

/-- The error registers of the unit `DEC` (R19 to R23): what a fault records. -/
structure ErrorRegs where
  /-- `DEC_ECODE` (R19). -/
  ecode : ErrorCode
  /-- `DEC_ESUB` (R20). -/
  esub : BitVec 1
  /-- `DEC_EPOS` (R21), `POS_W` bits. -/
  epos : Nat
  /-- `DEC_ESAME` (R22). -/
  esame : BitVec 3
  /-- `DEC_EEXP` (R23), `LEN_W` bits. -/
  eexp : Nat
  /-- `DEC_EACT` (R23), `LEN_W` bits. -/
  eact : Nat
  /-- `DEC_ELANE` (R23). -/
  elane : BitVec 2
deriving DecidableEq, Repr

/-- No fault recorded: every error register 0 (R19 to R23). -/
def ErrorRegs.zero : ErrorRegs := ⟨.none, 0, 0, 0, 0, 0, 0⟩

/-- The registers of the unit `DEC` (R14 to R24). -/
structure DecRegs where
  /-- `DEC_STATE` (R14). -/
  state : UnitState
  /-- `DEC_MASK` (R15): bit `j` is lane `j`. -/
  mask : BitVec 4
  /-- `DEC_N` (R16). -/
  n : BitVec 3
  /-- `DEC_REM` (R17), `LEN_W` bits. -/
  rem : Nat
  /-- `DEC_POS` (R18), `POS_W` bits. -/
  pos : Nat
  /-- `DEC_ECODE` to `DEC_ELANE` (R19 to R23). -/
  err : ErrorRegs
  /-- `DEC_LN0` to `DEC_LN3`, `DEC_K`, `DEC_ACC` (R24). -/
  dp : DecDatapath
deriving DecidableEq, Repr

/-- Every decoder register 0, `DEC_STATE` `IDLE` (R31, R118). -/
def DecRegs.zero : DecRegs := ⟨.idle, 0, 0, 0, 0, ErrorRegs.zero, DecDatapath.zero⟩

/-- What the world outside CORE does to it (R7, R170, R172), one event at a time (log entry 3). -/
inductive HostEvent where
  /-- A command word arrives on the command port (R68): the number whose bit `n` is `cmd[n]`. No operation reads a bit
  above those its format uses (R69 to R72), which `CMD_W` bits hold (log entry 14). -/
  | command (cmd : Nat)
  /-- The reset input `rst` is asserted (R170). -/
  | rst
  /-- The host takes away what the four share sinks hold, leaving them empty (R172, R173, R183). -/
  | emptyShares
  /-- The host takes away what the output sink holds, leaving it empty (R172, R173, R183). -/
  | emptyOut
deriving DecidableEq, Repr

/-- The state of CORE, with what stands at its ports. -/
structure State where
  /-- The encoder's registers (R10). -/
  enc : EncRegs
  /-- The decoder's registers (R10). -/
  dec : DecRegs
  /-- `LEN_W` (R5), the OPEN width that this machine is built with; read-only (log entry 1). -/
  lenW : Nat
  /-- The weight table of the catalog ROM (R25, R63), the OPEN weights that this machine is built with (R5); read-only
  (log entry 2). -/
  weights : Weights
  /-- The host's coming events, the next first: the model's own field (log entry 3). -/
  port : List HostEvent
  /-- The step output `rej` of the latest command (R27): the model's own field (log entry 4). -/
  rej : Bool
  /-- The stream spaces `SH0` to `SH3` (R40), as the host's sinks hold them: the model's own field (log entry 4). -/
  sh : Quad (List Byte)
  /-- The stream space `OUT` (R40), as the host's sink holds it: the model's own field (log entry 4). -/
  out : List Byte
deriving DecidableEq, Repr

/-- Nothing stops CORE: every command in every state has an effect in the spec (R141, R142), a fault of the decoder
is a state of it (R14, R157), and no input of the machine is outside its rules. So there is no fault reason. -/
inductive Fault where
deriving DecidableEq, Repr

/-- The reasons a step has no meaning. -/
inductive Refusal where
  /-- Raised by `exec` for an instruction that has no meaning yet; safe. No arm of `exec` raises it now. -/
  | notModelled (mnemonic : String)
deriving DecidableEq, Repr

/-- The machine built with the given OPEN parameters, each with its default (R5), right after reset (R31, R170, R171):
every register of both units at its reset value. No event is waiting, the sinks are empty and no rejection has been
reported (log entry 4). -/
def State.resetFor (lenW : Nat := Config.defaultLenW) (weights : Weights := Config.defaultWeights) : State :=
  { enc := EncRegs.zero
    dec := DecRegs.zero
    lenW := lenW
    weights := weights
    port := []
    rej := false
    sh := ⟨[], [], [], []⟩
    out := [] }

/-- The machine right after reset with every OPEN parameter at the default that R5 states. -/
def State.reset : State := State.resetFor

end Sys2Proof.Machine
end

