-- ==== Sys2Proof/Machine/Ops.lean ====
section
/-! DEFINITION. The named operations over the state: what a command may do to the registers and the streams, the
decoder's fault entry (spec/60_exceptions.md R157) and the way out of it (R159), reset (R170), and the host's events
at the ports. -/

namespace Sys2Proof.Machine

/-- A command is rejected (R141): no register changes, nothing is pushed, `rej` = 1. -/
def reject (s : State) : State := { s with rej := true }

/-- A command is not rejected (R141): `rej` = 0. -/
def accept (s : State) : State := { s with rej := false }

/-- A count of `LEN_W` bits one up: `ENC_COUNT` + 1 modulo 2^`LEN_W` (R12). -/
def nextCount (lenW count : Nat) : Nat := (count + 1) % 2 ^ lenW

/-- `DEC_REM` − 1 in `LEN_W` bits (R17). R124 has it computed from a count of at least 1 only. -/
def prevCount (lenW count : Nat) : Nat := (count + (2 ^ lenW - 1)) % 2 ^ lenW

/-- A position `n` up in `POS_W` bits (R18, R21). R124 has no carry out of `POS_W` bits. -/
def addPos (lenW pos n : Nat) : Nat := (pos + n) % 2 ^ Config.posW lenW

/-- A count of lanes in a register of `LEN_W` bits (R23). A `LEN_W` of 1 cannot hold 2 or 3: then the register holds a
value that the spec leaves open (log entry 13). -/
def countField (lenW n : Nat) : Nat := if n < 2 ^ lenW then n else Config.freeCount lenW n % 2 ^ lenW

/-- Every encoder register takes its reset value (R97, R170). -/
def clearEnc (s : State) : State := { s with enc := EncRegs.zero }

/-- Every decoder register takes its reset value (R116, R118, R170). -/
def clearDec (s : State) : State := { s with dec := DecRegs.zero }

/-- The two bytes of a share word in stream order (R44). -/
def wordBytes (w : ShareWord) : List Byte := [w.extractLsb' 8 8, w.extractLsb' 0 8]

/-- `Push(SHj, W_j[15:8]); Push(SHj, W_j[7:0])` for the four shares (R95): a push appends (R41). -/
def pushShares (w : Quad ShareWord) (s : State) : State :=
  { s with sh := Quad.ofFn fun j => s.sh.get j ++ wordBytes (w.get j) }

/-- `Push(OUT, byte)` (R117). -/
def pushOut (b : Byte) (s : State) : State := { s with out := s.out ++ [b] }

/-- `raise E(info)` (R157), the decoder's fault entry: `DEC_STATE` becomes `FAULT` and the error registers take what
`e` records. `DEC_MASK`, `DEC_N`, `DEC_REM` and `DEC_POS` keep their values, which are the ones latched or cleared by
the `DEC.START` that raises or left by the words before the `DEC.WORD` that raises. The datapath registers are
emptied (R24), nothing is pushed, `rej` = 0. -/
def raiseError (e : ErrorRegs) (s : State) : State :=
  accept { s with dec := { s.dec with state := .fault, err := e, dp := DecDatapath.zero } }

/-- Leaving the fault state to `IDLE` (R159), the effect of `DEC.ABORT` (R118): every decoder register is cleared and
`rej` = 0. -/
def leaveFault (s : State) : State := accept (clearDec s)

/-- The reset input is asserted (R170): every register of both units takes its reset value; nothing is pushed; the
ROMs are unchanged. `rst` is no operation, so the step output `rej` is not driven by it and keeps its value
(log entry 4). -/
def applyReset (s : State) : State := clearDec (clearEnc s)

/-- The host empties the four share sinks (R173). -/
def emptyShares (s : State) : State := { s with sh := ⟨[], [], [], []⟩ }

/-- The host empties the output sink (R173). -/
def emptyOut (s : State) : State := { s with out := [] }

/-- The next event at the ports, and the state in which it is taken: the events after it wait. -/
def nextEvent (s : State) : Option (HostEvent × State) :=
  match s.port with
  | [] => none
  | ev :: rest => some (ev, { s with port := rest })

/-- A command word arrives at the ports ahead of every event that waits there. -/
def placeCommand (cmd : Nat) (s : State) : State := { s with port := .command cmd :: s.port }

end Sys2Proof.Machine
end

