-- ==== Sys2Proof/Machine/Operands.lean ====
section
/-! DEFINITION. The read-only tables (spec/30_encoding.md R62 to R66) and the pure functions between bits, symbols,
columns, share words and bytes: the encoder's `MapBit`, `Permute`, `EncBit`, `PackWord` (spec/40_encoder.md R90 to
R93), the decoder's `UnpackSym` (spec/41_decoder.md R110), and the lanes a mask enables (R81). -/

namespace Sys2Proof.Machine

/-- A code entry from its ROM byte (R61): `t[0]` in bits 7 and 6. -/
def entryOfByte (b : Byte) : Quad Symbol :=
  ⟨b.extractLsb' 6 2, b.extractLsb' 4 2, b.extractLsb' 2 2, b.extractLsb' 0 2⟩

/-- The ROM bytes of the zero family `ZCAT` (R62). -/
def zcatRom : List Byte := [0x05, 0x0A, 0x0F, 0x5A, 0x5F, 0xAF]

/-- The ROM bytes of the one family `OCAT` (R63). -/
def ocatRom : List Byte := [0x00, 0x55, 0xAA, 0xFF, 0x1B]

/-- The permutation ROM `PERM` (R66). -/
def permRom : List (Quad (Fin 4)) :=
  [⟨0, 1, 2, 3⟩, ⟨0, 1, 3, 2⟩, ⟨0, 2, 1, 3⟩, ⟨0, 2, 3, 1⟩, ⟨0, 3, 1, 2⟩, ⟨0, 3, 2, 1⟩,
   ⟨1, 0, 2, 3⟩, ⟨1, 0, 3, 2⟩, ⟨1, 2, 0, 3⟩, ⟨1, 2, 3, 0⟩, ⟨1, 3, 0, 2⟩, ⟨1, 3, 2, 0⟩] ++
  [⟨2, 0, 1, 3⟩, ⟨2, 0, 3, 1⟩, ⟨2, 1, 0, 3⟩, ⟨2, 1, 3, 0⟩, ⟨2, 3, 0, 1⟩, ⟨2, 3, 1, 0⟩,
   ⟨3, 0, 1, 2⟩, ⟨3, 0, 2, 1⟩, ⟨3, 1, 0, 2⟩, ⟨3, 1, 2, 0⟩, ⟨3, 2, 0, 1⟩, ⟨3, 2, 1, 0⟩]

/-- `ZCAT[e]`; read only with `e` in range. -/
def zcat (e : Nat) : Quad Symbol := entryOfByte (zcatRom.getD e 0)

/-- `OCAT[o]`; read only with `o` in range. -/
def ocat (o : Nat) : Quad Symbol := entryOfByte (ocatRom.getD o 0)

/-- `PERM[p]`; read only with `p` in range. -/
def perm (p : Nat) : Quad (Fin 4) := permRom.getD p ⟨0, 1, 2, 3⟩

/-- `OIdx(e)` (R64). -/
def oIdx (w : Weights) (e : Nat) : Nat := if e < 4 * w.wIdent then e / w.wIdent else 4

/-- A draw pair is in range for a source bit (R64, R66, R95). -/
def drawInRange (w : Weights) (b : Bool) (dp : DrawPair) : Bool :=
  decide (dp.p < Config.nperm) && decide (dp.e < if b then w.no else Config.nz)

/-- `MapBit(b, e)` (R90). -/
def mapBit (w : Weights) (b : Bool) (e : Nat) : Quad Symbol := if b then ocat (oIdx w e) else zcat e

/-- `Permute(t, p)` (R91): `y[j] = t[PERM[p][j]]`. -/
def permute (t : Quad Symbol) (p : Nat) : Quad Symbol := Quad.ofFn fun j => t.get ((perm p).get j)

/-- `EncBit(b, e, p)` (R92): the column of one position. -/
def encBit (w : Weights) (b : Bool) (dp : DrawPair) : Quad Symbol := permute (mapBit w b dp.e) dp.p

/-- `PackWord(s0, …, s7)` (R93): `s0` in bits 15 and 14, `s7` in bits 1 and 0. -/
def packWord (y : Fin 8 → Symbol) : ShareWord := y 0 ++ y 1 ++ y 2 ++ y 3 ++ y 4 ++ y 5 ++ y 6 ++ y 7

/-- `UnpackSym(w, k)` (R110): bits `[15-2k : 14-2k]`. -/
def unpackSym (w : ShareWord) (k : Fin 8) : Symbol := w.extractLsb' (14 - 2 * k.val) 2

/-- The `k`-th bit of a byte in processing order (R42): `d[7-k]`. -/
def byteBit (d : Byte) (k : Fin 8) : Bool := d.getLsbD (7 - k.val)

/-- The byte whose bit `7-k` is `v k` (R45). -/
def packByte (v : Fin 8 → Bool) : Byte :=
  BitVec.ofBool (v 0) ++ BitVec.ofBool (v 1) ++ BitVec.ofBool (v 2) ++ BitVec.ofBool (v 3) ++ BitVec.ofBool (v 4)
    ++ BitVec.ofBool (v 5) ++ BitVec.ofBool (v 6) ++ BitVec.ofBool (v 7)

/-- Every draw pair of an `ENC.BYTE` is in range for its bit (R95). -/
def drawsInRange (w : Weights) (d : Byte) (draws : Octet DrawPair) : Bool :=
  allColumns.all fun k => drawInRange w (byteBit d k) (draws.get k)

/-- The column `y_k` of each bit of a source byte (R95). -/
def encColumn (w : Weights) (d : Byte) (draws : Octet DrawPair) (k : Fin 8) : Quad Symbol :=
  encBit w (byteBit d k) (draws.get k)

/-- The share words `W_j` of a source byte (R95). -/
def encWords (w : Weights) (d : Byte) (draws : Octet DrawPair) : Quad ShareWord :=
  Quad.ofFn fun j => packWord fun k => (encColumn w d draws k).get j

/-- The lanes a mask enables, ascending (R81, R117). -/
def enabledLanes (mask : BitVec 4) : List (Fin 4) := allLanes.filter fun j => mask.getLsbD j.val

/-- `popcount(mask)` (R16). -/
def popcount (mask : BitVec 4) : Nat := (enabledLanes mask).length

/-- The lowest enabled lane `r` (R116); read only when a lane is enabled. -/
def refLane (mask : BitVec 4) : Fin 4 := (enabledLanes mask).headD 0

/-- The number of a lane as the register `DEC_ELANE` holds it (R23). -/
def laneNumber (j : Fin 4) : BitVec 2 := BitVec.ofNat 2 j.val

/-- The column `c_k` of a `DEC.WORD` (R117): the symbols of the enabled lanes, ascending. -/
def decColumn (mask : BitVec 4) (w : Quad ShareWord) (k : Fin 8) : List Symbol :=
  (enabledLanes mask).map fun j => unpackSym (w.get j) k

end Sys2Proof.Machine
end

