-- ==== Sys2Proof/Machine/Flags.lean ====
section
/-! DEFINITION. What the hardware computes to decide: the voting comparator array `Same`, the two decision rules and
the vote of a position (spec/41_decoder.md R111 to R115), the corruption a word shows (R117), and the precondition
checks of `DEC.START` with what each fault records (R116, spec/10_state.md R20 to R23). CORE has no condition
codes (R29). -/

namespace Sys2Proof.Machine

/-- `Same(c)` (R111): the number of unordered pairs of equal symbols in a column. -/
def same : List Symbol → Nat
  | [] => 0
  | x :: c => (c.filter fun y => y == x).length + same c

/-- `diff` = C(n,2) − `same` (R125); no operation reads it. -/
def diff (c : List Symbol) : Nat := c.length * (c.length - 1) / 2 - same c

/-- The outcome of the decision rules. -/
inductive Vote where
  | bit (b : Bool)
  | corrupt
deriving DecidableEq, Repr

/-- `Classify4` (R112): every count outside 0, 2 and 6 raises the corruption line. -/
def classify4 (n : Nat) : Vote :=
  match n with
  | 2 => .bit false
  | 0 => .bit true
  | 6 => .bit true
  | _ => .corrupt

/-- `Classify3` (R113). The count 2 cannot arise (R114); it takes bit 1, as R113 and
spec/93_implementation_defined.md I17 allow (DESIGN CHOICE, log entry 5). -/
def classify3 (n : Nat) : Vote :=
  match n with
  | 1 => .bit false
  | _ => .bit true

/-- `DecPos(n, c)` (R115). `DEC_N` is 3 or 4 whenever a word is decoded (R33); any other value takes the three-lane
rule (DESIGN CHOICE, log entry 5). -/
def decPos (n : BitVec 3) (c : List Symbol) : Vote := if n = 4 then classify4 (same c) else classify3 (same c)

/-- The value a vote contributes to the output byte. -/
def Vote.value (v : Vote) : Bool :=
  match v with
  | .bit b => b
  | .corrupt => false

/-- The vote `v_k` of each column of a word (R117). -/
def wordVote (n : BitVec 3) (mask : BitVec 4) (w : Quad ShareWord) (k : Fin 8) : Vote := decPos n (decColumn mask w k)

/-- The lowest corrupt column of a word, if any (R117). -/
def firstCorrupt (n : BitVec 3) (mask : BitVec 4) (w : Quad ShareWord) : Option (Fin 8) :=
  allColumns.find? fun k => wordVote n mask w k == .corrupt

/-- The output byte of a word (R117): `v_0` in bit 7. -/
def wordByte (n : BitVec 3) (mask : BitVec 4) (w : Quad ShareWord) : Byte :=
  packByte fun k => (wordVote n mask w k).value

/-- What `INSUFFICIENT_SHARES` records (R151, R23). -/
def insufficientShares (lenW n : Nat) : ErrorRegs :=
  { ErrorRegs.zero with
    ecode := .insufficientShares, eexp := countField lenW Config.threshold, eact := countField lenW n }

/-- What `LENGTH_MISMATCH` records for lanes of different lengths (R152, R23). -/
def unequalLengths (expected actual : Nat) (lane : Fin 4) : ErrorRegs :=
  { ErrorRegs.zero with
    ecode := .lengthMismatch, esub := 0, eexp := expected, eact := actual, elane := laneNumber lane }

/-- What `LENGTH_MISMATCH` records for an odd common length (R153, R23). -/
def oddLength (actual : Nat) (lane : Fin 4) : ErrorRegs :=
  { ErrorRegs.zero with
    ecode := .lengthMismatch, esub := 1, eexp := actual - 1, eact := actual, elane := laneNumber lane }

/-- What `CORRUPTED_INPUT` records (R154, R21, R22). -/
def corruptedInput (position count : Nat) : ErrorRegs :=
  { ErrorRegs.zero with ecode := .corruptedInput, epos := position, esame := BitVec.ofNat 3 count }

/-- The lowest enabled lane whose declared length differs from that of the lowest enabled lane (R116, check 2). -/
def differingLane (mask : BitVec 4) (len : Quad Nat) : Option (Fin 4) :=
  (enabledLanes mask).find? fun j => len.get j != len.get (refLane mask)

/-- The checks of `DEC.START` in their order (R116, R156): the fault that is raised, or none. -/
def startFault (lenW : Nat) (mask : BitVec 4) (len : Quad Nat) : Option ErrorRegs :=
  if popcount mask < Config.threshold then some (insufficientShares lenW (popcount mask))
  else
    match differingLane mask len with
    | some j => some (unequalLengths (len.get (refLane mask)) (len.get j) j)
    | none =>
      if len.get (refLane mask) % 2 = 1 then some (oddLength (len.get (refLane mask)) (refLane mask)) else none

end Sys2Proof.Machine
end

