-- ==== Sys2Proof/Machine/Datapath.lean ====
section
/-! DEFINITION. The datapath registers at work inside one operation (spec/10_state.md R13, R24): the encoder's shift
register and packers, and the decoder's lane registers and accumulator, one position at a time. The operations
themselves (Encoder.lean, Decoder.lean) evaluate the eight positions at once, as R53 and R95 allow; that both ways
give the same words and bytes is a statement about this file. -/

namespace Sys2Proof.Machine

/-- A source byte enters `ENC_SR`; the packers are empty (R13). -/
def encLoad (d : Byte) : EncDatapath := { EncDatapath.zero with sr := d }

/-- A symbol enters its packer at the place of position `k`, from the most significant end (R13, R44). -/
def packerPut (k : BitVec 3) (pk : ShareWord) (s : Symbol) : ShareWord :=
  pk ||| (s.setWidth 16 <<< (14 - 2 * k.toNat))

/-- One bit of the source byte is mapped, permuted and packed; `ENC_SR` shifts to the next bit (R13, R92). -/
def encShift (w : Weights) (r : EncDatapath) (dp : DrawPair) : EncDatapath :=
  { sr := r.sr <<< 1
    k := r.k + 1
    pk := Quad.ofFn fun j => packerPut r.k (r.pk.get j) ((encBit w r.sr.msb dp).get j) }

/-- The datapath registers after the eight bits of a source byte, the packers full (R13). -/
def encSerial (w : Weights) (d : Byte) (draws : Octet DrawPair) : EncDatapath :=
  draws.toList.foldl (encShift w) (encLoad d)

/-- The share words of the lanes enter `DEC_LN0` to `DEC_LN3` (R24). -/
def decLoad (w : Quad ShareWord) : DecDatapath := { DecDatapath.zero with ln := w }

/-- The column at the most significant end of the enabled lane registers (R24, R110). -/
def decFront (mask : BitVec 4) (r : DecDatapath) : List Symbol :=
  (enabledLanes mask).map fun j => (r.ln.get j).extractLsb' 14 2

/-- One position is voted on: its bit enters `DEC_ACC` at bit `7-k` and the lane registers shift to the next
position; a corrupt column stops with its index and count (R24, R117). -/
def decShift (n : BitVec 3) (mask : BitVec 4) (r : DecDatapath) : Except (BitVec 3 × Nat) DecDatapath :=
  match decPos n (decFront mask r) with
  | .corrupt => .error (r.k, same (decFront mask r))
  | .bit b =>
    .ok
      { ln := Quad.ofFn fun j => r.ln.get j <<< 2
        k := r.k + 1
        acc := r.acc ||| ((BitVec.ofBool b).setWidth 8 <<< (7 - r.k.toNat)) }

/-- `steps` positions of a word in order. -/
def decShifts (n : BitVec 3) (mask : BitVec 4) : Nat → DecDatapath → Except (BitVec 3 × Nat) DecDatapath
  | 0, r => .ok r
  | steps + 1, r =>
    match decShift n mask r with
    | .error e => .error e
    | .ok r' => decShifts n mask steps r'

/-- The datapath registers after the eight positions of a word, the accumulator full; or the lowest corrupt
position and its count (R24, R117). -/
def decSerial (n : BitVec 3) (mask : BitVec 4) (w : Quad ShareWord) : Except (BitVec 3 × Nat) DecDatapath :=
  decShifts n mask 8 (decLoad w)

end Sys2Proof.Machine
end

