-- ==== Sys2Proof/Machine/Decoder.lean ====
section
/-! DEFINITION. The meanings of the decoder's operations (spec/41_decoder.md R116 to R118, spec/42_control.md
R140). -/

namespace Sys2Proof.Machine

/-- `DEC.NOP` (R140). -/
def execDecNop (s : State) : Host.Outcome State Fault Refusal := .next (accept s)

/-- The decoder's registers once `DEC.START` has cleared them and latched its mask (R116). -/
def latchMask (mask : BitVec 4) (s : State) : State :=
  { s with dec := { DecRegs.zero with mask := mask, n := BitVec.ofNat 3 (popcount mask) } }

/-- `DEC.START` passes its checks with the common length `len` (R116): the unit runs, or is done at once when there
is nothing to decode. -/
def openDecode (len : Nat) (s : State) : State :=
  accept { s with dec := { s.dec with rem := len / 2, pos := 0, state := if len = 0 then .done else .run } }

/-- `DEC.START` (R116): accepted in every state, `FAULT` included. -/
def execDecStart (mask : BitVec 4) (len : Quad Nat) (s : State) : Host.Outcome State Fault Refusal :=
  match startFault s.lenW mask len with
  | some e => .next (raiseError e (latchMask mask s))
  | none => .next (openDecode (len.get (refLane mask)) (latchMask mask s))

/-- A word without a corrupt column (R117): its byte is pushed, the counters advance, and the last word ends the
invocation. The datapath registers end the operation empty (R24). -/
def advanceDecode (b : Byte) (s : State) : State :=
  accept (pushOut b
    { s with
      dec :=
        { s.dec with
          pos := addPos s.lenW s.dec.pos 8
          rem := prevCount s.lenW s.dec.rem
          state := if prevCount s.lenW s.dec.rem = 0 then .done else .run
          dp := DecDatapath.zero } })

/-- `DEC.WORD` (R117): rejected outside `RUN`, before any operand is looked at (R156). -/
def execDecWord (w : Quad ShareWord) (s : State) : Host.Outcome State Fault Refusal :=
  if s.dec.state = .run then
    match firstCorrupt s.dec.n s.dec.mask w with
    | some k =>
      .next (raiseError (corruptedInput (addPos s.lenW s.dec.pos k.val) (same (decColumn s.dec.mask w k))) s)
    | none => .next (advanceDecode (wordByte s.dec.n s.dec.mask w) s)
  else .next (reject s)

/-- `DEC.ABORT` (R118): accepted in every state. -/
def execDecAbort (s : State) : Host.Outcome State Fault Refusal := .next (leaveFault s)

end Sys2Proof.Machine
end

