-- ==== Sys2Proof/Machine/Encoder.lean ====
section
/-! DEFINITION. The meanings of the encoder's operations (spec/40_encoder.md R94 to R97, spec/42_control.md R140). -/

namespace Sys2Proof.Machine

/-- `ENC.NOP` (R140). -/
def execEncNop (s : State) : Host.Outcome State Fault Refusal := .next (accept s)

/-- `ENC.START` (R94): accepted in every state; everything the encoder holds is cleared and an invocation opens. -/
def execEncStart (s : State) : Host.Outcome State Fault Refusal :=
  .next (accept { s with enc := { EncRegs.zero with state := .run } })

/-- `ENC.BYTE` (R95): the state and the draws are checked before anything is written; then the four share words of
the byte are pushed and `ENC_COUNT` advances modulo 2^`LEN_W` (R12). The datapath registers end the operation empty
(R13). -/
def execEncByte (d : Byte) (draws : Octet DrawPair) (s : State) : Host.Outcome State Fault Refusal :=
  if s.enc.state = .run ∧ drawsInRange s.weights d draws = true then
    .next (accept (pushShares (encWords s.weights d draws)
      { s with enc := { s.enc with count := nextCount s.lenW s.enc.count, dp := EncDatapath.zero } }))
  else .next (reject s)

/-- `ENC.END` (R96). -/
def execEncEnd (s : State) : Host.Outcome State Fault Refusal :=
  if s.enc.state = .run then .next (accept { s with enc := { s.enc with state := .done } }) else .next (reject s)

/-- `ENC.ABORT` (R97): accepted in every state. -/
def execEncAbort (s : State) : Host.Outcome State Fault Refusal := .next (accept (clearEnc s))

end Sys2Proof.Machine
end

