-- ==== Sys2Proof/Machine/Dispatch.lean ====
section
/-! DEFINITION. The dispatch of a command to its meaning (spec/30_encoding.md R73). -/

namespace Sys2Proof.Machine

def exec (i : Instr) (s : State) : Host.Outcome State Fault Refusal :=
  match i with
  | .encNop => Sys2Proof.Machine.execEncNop s
  | .encStart => Sys2Proof.Machine.execEncStart s
  | .encByte d draws => Sys2Proof.Machine.execEncByte d draws s
  | .encEnd => Sys2Proof.Machine.execEncEnd s
  | .encAbort => Sys2Proof.Machine.execEncAbort s
  | .decNop => Sys2Proof.Machine.execDecNop s
  | .decStart mask len => Sys2Proof.Machine.execDecStart mask len s
  | .decWord w => Sys2Proof.Machine.execDecWord w s
  | .decAbort => Sys2Proof.Machine.execDecAbort s

end Sys2Proof.Machine
end

