-- ==== Sys2Proof/Machine/Step.lean ====
section
/-! DEFINITION. One step of the machine: the next event at the ports takes effect (spec/00_scope.md R6, R7;
spec/70_reset_and_hazards.md R170). -/

namespace Sys2Proof.Machine

/-- One step. A command word is decoded and runs as one atomic operation (R6); a word with a reserved code is
rejected (R74, R141); `rst` resets both units (R170); the host's own acts change its sinks only; and with no event at
the ports every register holds (R165). -/
def step (s : State) : Host.Outcome State Fault Refusal :=
  match nextEvent s with
  | none => .next s
  | some (.command cmd, t) =>
    match decode t.lenW cmd with
    | .ok i => exec i t
    | .error _ => .next (reject t)
  | some (.rst, t) => .next (applyReset t)
  | some (.emptyShares, t) => .next (emptyShares t)
  | some (.emptyOut, t) => .next (emptyOut t)

/-- The word of `tableWord` as the next command at the port (log entry 6). The table numbers the bits for the default
`LEN_W`, which State.reset has. -/
def State.withFetchWord (s : State) (nbits w : Nat) : State := placeCommand (tableWord nbits w) s

end Sys2Proof.Machine
end

