-- ==== Sys2Proof/Safety.lean ====
section
/-! DEFINITION. The terms that claims are stated in: the invariant of the registers (spec/10_state.md R16 to R23, R33),
when a command is rejected (spec/42_control.md R141), the stream positions (spec/20_memory.md R42 to R46), the two
pseudo-operations (spec/30_encoding.md R80), and the counts of draws behind the secrecy claims (spec/40_encoder.md
R100, R101). -/

namespace Sys2Proof.Machine

/-- The machine built with the given OPEN parameters (R5), behind the host's interface: what `core` is for their
defaults. -/
def machineFor (lenW : Nat) (weights : Weights) : Host.Core :=
  { State := State, Fault := Fault, Refusal := Refusal, step := step, reset := State.resetFor lenW weights }

/-- `LEN_W` and the weights satisfy the constraints that R5 puts on the OPEN parameters. -/
abbrev State.parametersAdmissible (s : State) : Prop := 1 ≤ s.lenW ∧ s.weights.admissible

/-- The encoder's registers between operations (R11, R12, R13, R33). -/
abbrev encInv (lenW : Nat) (r : EncRegs) : Prop :=
  r.state ≠ .fault ∧ (r.state = .idle → r.count = 0) ∧ r.count < 2 ^ lenW ∧ r.dp = EncDatapath.zero

/-- What `INSUFFICIENT_SHARES` leaves (R20 to R23, R157). -/
abbrev insufficientSharesInv (lenW : Nat) (r : DecRegs) : Prop :=
  r.n.toNat < 3 ∧ r.rem = 0 ∧ r.pos = 0
  ∧ r.err = ⟨.insufficientShares, 0, 0, 0, countField lenW 3, countField lenW r.n.toNat, 0⟩

/-- What `LENGTH_MISMATCH` leaves (R20 to R23, R157): sub-cause 0 blames an enabled lane that is not the lowest enabled
one, sub-cause 1 the lowest enabled one. -/
abbrev lengthMismatchInv (lenW : Nat) (r : DecRegs) : Prop :=
  3 ≤ r.n.toNat ∧ r.rem = 0 ∧ r.pos = 0 ∧ r.err.epos = 0 ∧ r.err.esame = 0
  ∧ r.err.eexp < 2 ^ lenW ∧ r.err.eact < 2 ^ lenW ∧ r.mask.getLsbD r.err.elane.toNat = true
  ∧ (r.err.esub = 0 → r.err.eexp ≠ r.err.eact ∧ r.err.elane ≠ laneNumber (refLane r.mask))
  ∧ (r.err.esub = 1 →
      r.err.eact % 2 = 1 ∧ r.err.eexp + 1 = r.err.eact
      ∧ r.err.elane = laneNumber (refLane r.mask))

/-- What `CORRUPTED_INPUT` leaves (R21 to R23, R33, R157). -/
abbrev corruptedInputInv (r : DecRegs) : Prop :=
  r.n = 4 ∧ (r.err.esame = 1 ∨ r.err.esame = 3) ∧ 0 < r.rem
  ∧ r.pos ≤ r.err.epos ∧ r.err.epos ≤ r.pos + 7
  ∧ r.err.esub = 0 ∧ r.err.eexp = 0 ∧ r.err.eact = 0 ∧ r.err.elane = 0

/-- What the decoder's error registers hold under each code (R19 to R23): the host's own codes are never held (R155). -/
def errInv (lenW : Nat) (r : DecRegs) : Bool :=
  match r.err.ecode with
  | .none => decide (r.err = ErrorRegs.zero)
  | .sourceNotFound => false
  | .sinkCollision => false
  | .insufficientShares => decide (insufficientSharesInv lenW r)
  | .lengthMismatch => decide (lengthMismatchInv lenW r)
  | .corruptedInput => decide (corruptedInputInv r)

/-- The decoder's registers between operations (R16 to R18, R24, R33). -/
abbrev decInv (lenW : Nat) (r : DecRegs) : Prop :=
  r.n.toNat = popcount r.mask
  ∧ (r.state = .fault ↔ r.err.ecode ≠ .none)
  ∧ (r.state = .run → (r.n = 3 ∨ r.n = 4) ∧ 0 < r.rem)
  ∧ (r.state = .done → (r.n = 3 ∨ r.n = 4) ∧ r.rem = 0)
  ∧ (r.state = .idle → r = DecRegs.zero)
  ∧ r.pos % 8 = 0
  ∧ r.pos + 8 * r.rem < 2 ^ Config.posW lenW
  ∧ r.dp = DecDatapath.zero
  ∧ errInv lenW r = true

/-- The invariant of CORE (R33), with the constraints on the OPEN parameters (R5). -/
abbrev State.Inv (s : State) : Prop := encInv s.lenW s.enc ∧ decInv s.lenW s.dec ∧ s.parametersAdmissible

/-- A command addresses the encoder: `cmd[3]` = 0 (R68). -/
def isEnc (i : Instr) : Bool := !(opcode i).getLsbD 3

/-- The draw pair `dp` is outside its range for the source bit `b`, in the words of the table of R141. -/
abbrev drawOutOfRange (w : Weights) (b : Bool) (dp : DrawPair) : Prop :=
  24 ≤ dp.p ∨ (b = false ∧ 6 ≤ dp.e) ∨ (b = true ∧ w.no ≤ dp.e)

/-- The table of rejected combinations of R141, the reserved codes apart. -/
def rejectedWhen (i : Instr) (s : State) : Prop :=
  match i with
  | .encByte d draws =>
    s.enc.state ≠ .run ∨ ∃ k : Fin 8, drawOutOfRange s.weights (byteBit d k) (draws.get k)
  | .encEnd => s.enc.state ≠ .run
  | .decWord _ => s.dec.state ≠ .run
  | .encNop => False
  | .encStart => False
  | .encAbort => False
  | .decNop => False
  | .decStart _ _ => False
  | .decAbort => False

/-- Source bit number `p` of a byte stream (R42); also the reconstructed bit of position `p` (R45). -/
def bitAt (x : List Byte) (p : Nat) : Bool := (x.getD (p / 8) 0).getLsbD (7 - p % 8)

/-- The symbol of position `p` of a share (R43). -/
def symAt (x : List Byte) (p : Nat) : Symbol := (x.getD (p / 4) 0).extractLsb' (6 - 2 * (p % 4)) 2

/-- The share word at offset `2i` of a share (R44). -/
def shareWordAt (x : List Byte) (i : Nat) : ShareWord := x.getD (2 * i) 0 ++ x.getD (2 * i + 1) 0

/-- The column of position `p` across the enabled lanes (R119). -/
def columnAt (mask : BitVec 4) (x : Quad (List Byte)) (p : Nat) : List Symbol :=
  (enabledLanes mask).map fun j => symAt (x.get j) p

/-- Commands in the order the host issues them (R53). -/
def runOps : List Instr → State → Host.Outcome State Fault Refusal
  | [], s => .next s
  | i :: rest, s =>
    match exec i s with
    | .next t => runOps rest t
    | .fault r => .fault r
    | .refused r => .refused r

/-- `ENCODE S WITH R` (R80), each source byte beside its eight draw pairs. -/
def encodeOps (src : List (Byte × Octet DrawPair)) : List Instr :=
  .encStart :: (src.map fun x => .encByte x.1 x.2) ++ [.encEnd]

/-- The `DEC.WORD` commands of `DECODE` (R80) from share word `i` on, at most `fuel` of them, while `DEC_STATE` is
`RUN`. -/
def decodeWords (x : Quad (List Byte)) : Nat → Nat → State → Host.Outcome State Fault Refusal
  | 0, _, s => .next s
  | fuel + 1, i, s =>
    if s.dec.state = .run then
      match exec (.decWord (Quad.ofFn fun j => shareWordAt (x.get j) i)) s with
      | .next t => decodeWords x fuel (i + 1) t
      | .fault r => .fault r
      | .refused r => .refused r
    else .next s

/-- `DECODE mask, X0, X1, X2, X3` (R80). -/
def decodeOp (mask : BitVec 4) (x : Quad (List Byte)) (s : State) : Host.Outcome State Fault Refusal :=
  match exec (.decStart mask (Quad.ofFn fun j => (x.get j).length)) s with
  | .next t => decodeWords x ((x.get (refLane mask)).length / 2) 0 t
  | .fault r => .fault r
  | .refused r => .refused r

/-- The draw pairs in range for a source bit (R99). -/
def drawPairs (w : Weights) (b : Bool) : List DrawPair :=
  (List.range (if b then w.no else 6)).flatMap fun e => (List.range 24).map fun p => ⟨e, p⟩

/-- How many draw pairs in range give the column `c` (R100). -/
def columnCount (w : Weights) (b : Bool) (c : Quad Symbol) : Nat :=
  ((drawPairs w b).filter fun dp => encBit w b dp == c).length

/-- How many draw pairs in range give the symbols `a` and `c` on the shares `i` and `j` (R101). -/
def pairCount (w : Weights) (b : Bool) (i j : Fin 4) (a c : Symbol) : Nat :=
  ((drawPairs w b).filter fun dp => (encBit w b dp).get i == a && (encBit w b dp).get j == c).length

/-- Row `p` of `PERM` by the closed form of R66. -/
def permClosed (p : Nat) : List Nat :=
  let a := [0, 1, 2, 3]
  let s0 := a.getD (p / 6) 0
  let a1 := a.erase s0
  let s1 := a1.getD (p % 6 / 2) 0
  let a2 := a1.erase s1
  let s2 := a2.getD (p % 2) 0
  let a3 := a2.erase s2
  [s0, s1, s2, a3.getD 0 0]

end Sys2Proof.Machine
end

