-- ==== Sys2Proof/Certificates/Slice0/Obligations.lean ====
section
/-! DEFINITION. The statements about the machine, each from the rules of spec/ that its docstring names. -/

open Sys2Proof Sys2Proof.Machine

/-! ### Encoding -/

/-- R5, R68 to R73, for every `LEN_W`: every operand of a command word is read back as it was written, and the word has
no bit above those its format uses, which are `CMD_W` bits for format S and, where `LEN_W` is 19 or more, at most `CMD_W`
bits for every format (log entry 14). -/
def Obligations.DecodeOfEncode : Prop :=
  ∀ (lenW : Nat) (i : Instr), i.wellFormed lenW = true →
    decode lenW (encode lenW i) = .ok i
    ∧ encode lenW i < 2 ^ usedBits lenW i
    ∧ (∀ mask len, i = .decStart mask len → usedBits lenW i = 8 + 4 * lenW)
    ∧ (19 ≤ lenW → usedBits lenW i ≤ 8 + 4 * lenW)

/-- R68 to R73, the other direction: the encoder writes back every bit that the decoder read, and whatever the decoder
reads is a term that a command word can carry. -/
def Obligations.EncodeOfDecode : Prop :=
  ∀ (lenW w : Nat) (i : Instr), decode lenW w = .ok i →
    i.wellFormed lenW = true ∧ ∀ n < usedBits lenW i, (encode lenW i).testBit n = w.testBit n

/-- R69 to R72, R75: a command is the same operation with any value in its ignored bits. -/
def Obligations.IgnoredBitsAreNotRead : Prop :=
  ∀ (lenW w w' : Nat) (i : Instr), decode lenW w = .ok i →
    (∀ n < usedBits lenW i, w'.testBit n = w.testBit n) → decode lenW w' = .ok i

/-- R73: the nine codes carry their operations and the seven codes of R74 carry none. -/
def Obligations.OpcodeMap : Prop :=
  ∀ (lenW w : Nat),
    (∀ i, decode lenW w = .ok i → field w 0 4 = opcode i)
    ∧ ((∃ e, decode lenW w = .error e) ↔ (field w 0 4).toNat ∈ [0x5, 0x6, 0x7, 0xB, 0xD, 0xE, 0xF])

/-- R69 to R72: where each format holds its operands. Format N reads the code alone; format B holds `d` at [11:4] and draw
pair `k` at [20+9k : 12+9k], `e` below `p`; format S holds `mask` at [7:4] and `len[j]`, `LEN_W` bits, at
[8+LEN_W(j+1)-1 : 8+LEN_W·j]; format W holds `w[j]` at [19+16j : 4+16j]. -/
def Obligations.FormatFields : Prop :=
  ∀ (lenW cmd : Nat),
    (∀ i ∈ [Instr.encNop, .encStart, .encEnd, .encAbort, .decNop, .decAbort], field cmd 0 4 = opcode i →
      decode lenW cmd = .ok i)
    ∧ (field cmd 0 4 = 0x2 →
      ∃ d draws, decode lenW cmd = .ok (.encByte d draws) ∧ (∀ n < 8, d.getLsbD n = cmd.testBit (4 + n))
        ∧ ∀ k : Fin 8, (draws.get k).e < 16 ∧ (draws.get k).p < 32
          ∧ (∀ n < 4, (draws.get k).e.testBit n = cmd.testBit (12 + 9 * k.val + n))
          ∧ (∀ n < 5, (draws.get k).p.testBit n = cmd.testBit (16 + 9 * k.val + n)))
    ∧ (field cmd 0 4 = 0x9 →
      ∃ mask len, decode lenW cmd = .ok (.decStart mask len) ∧ (∀ n < 4, mask.getLsbD n = cmd.testBit (4 + n))
        ∧ ∀ j : Fin 4, Quad.get len j < 2 ^ lenW
          ∧ ∀ n < lenW, (Quad.get len j).testBit n = cmd.testBit (8 + lenW * j.val + n))
    ∧ (field cmd 0 4 = 0xA →
      ∃ w, decode lenW cmd = .ok (.decWord w)
        ∧ ∀ (j : Fin 4), ∀ n < 16, (Quad.get w j).getLsbD n = cmd.testBit (4 + 16 * j.val + n))

/-- Words of spec/95_test_vectors.md read as the commands they stand for there (V20, V72, V90, V104, V130 to
V142), with the default `LEN_W` they are written for. -/
def Obligations.VectorWordsDecode : Prop :=
  decode 64 0x1DC90E4E1BA94D2800412
      = .ok (.encByte 0x41 ⟨⟨0, 0⟩, ⟨4, 9⟩, ⟨3, 5⟩, ⟨5, 23⟩, ⟨1, 14⟩, ⟨2, 7⟩, ⟨4, 18⟩, ⟨11, 3⟩⟩)
  ∧ decode 64 0x6000000000000000600000000000000060000000000000000E9 = .ok (.decStart 0b1110 ⟨0, 6, 6, 6⟩)
  ∧ decode 64 0x6300000000000000020000000000000002000000000000000279 = .ok (.decStart 0b0111 ⟨2, 2, 2, 99⟩)
  ∧ decode 64 0x46BD7A372B060000A = .ok (.decWord ⟨0, 0x2B06, 0x7A37, 0x46BD⟩)
  ∧ decode 64 0x0 = .ok .encNop ∧ decode 64 0x1 = .ok .encStart ∧ decode 64 0x3 = .ok .encEnd ∧ decode 64 0x4 = .ok .encAbort
  ∧ decode 64 0x8 = .ok .decNop ∧ decode 64 0xC = .ok .decAbort

/-! ### Steps -/

/-- R6, R53, R56: the command word at the port runs as one atomic operation; the events after it wait. That commands wait
in a list is the model's form of the command port (log entry 3). -/
def Obligations.StepRunsDecodedInstruction : Prop :=
  ∀ (s : State) (cmd : Nat) (rest : List HostEvent) (i : Instr),
    s.port = .command cmd :: rest → decode s.lenW cmd = .ok i → step s = exec i { s with port := rest }

/-- R74, R141: a reserved code is rejected: no state change, no push, `rej` = 1. -/
def Obligations.ReservedCodesAreRejected : Prop :=
  ∀ (s : State) (cmd : Nat) (rest : List HostEvent),
    s.port = .command cmd :: rest → (field cmd 0 4).toNat ∈ [0x5, 0x6, 0x7, 0xB, 0xD, 0xE, 0xF] →
      step s = .next { s with port := rest, rej := true }

/-- R170: `rst` in any state of either unit is a step of its own: every register of both units takes its reset value,
nothing is pushed and the ROMs are unchanged; the registers end as `ENC.ABORT` and `DEC.ABORT` together leave them. -/
def Obligations.ResetInputClearsBothUnits : Prop :=
  ∀ (s : State) (rest : List HostEvent), s.port = .rst :: rest →
    ∃ t u v, step s = .next t
      ∧ t.enc = State.reset.enc ∧ t.dec = State.reset.dec
      ∧ t.sh = s.sh ∧ t.out = s.out ∧ t.lenW = s.lenW ∧ t.weights = s.weights ∧ t.port = rest
      ∧ exec .encAbort s = .next u ∧ exec .decAbort u = .next v ∧ v.enc = t.enc ∧ v.dec = t.dec

/-- R165 (a unit with no command holds its state) and, for the host's own acts on its sinks, log entry 3: neither
touches a register. -/
def Obligations.OtherEventsHoldRegisters : Prop :=
  ∀ (s : State) (rest : List HostEvent),
    (s.port = [] → step s = .next s)
    ∧ (s.port = .emptyShares :: rest → step s = .next { s with port := rest, sh := ⟨[], [], [], []⟩ })
    ∧ (s.port = .emptyOut :: rest → step s = .next { s with port := rest, out := [] })

/-- R141, R142, R165: every state has a next state; nothing stops CORE. -/
def Obligations.EveryStepCompletes : Prop :=
  ∀ s : State, ∃ t, step s = .next t

/-- R31, R5: every architectural and transient register at its reset value, whatever the OPEN parameters. -/
def Obligations.ResetRegisterValues : Prop :=
  ∀ (lenW : Nat) (weights : Weights) (r : State), r = State.resetFor lenW weights →
    r.enc.state.code = 0 ∧ r.enc.count = 0 ∧ r.enc.dp = ⟨0, 0, ⟨0, 0, 0, 0⟩⟩
    ∧ r.dec.state.code = 0 ∧ r.dec.mask = 0 ∧ r.dec.n = 0 ∧ r.dec.rem = 0
    ∧ r.dec.pos = 0 ∧ r.dec.err.ecode.code = 0 ∧ r.dec.err.esub = 0
    ∧ r.dec.err.epos = 0 ∧ r.dec.err.esame = 0 ∧ r.dec.err.eexp = 0
    ∧ r.dec.err.eact = 0 ∧ r.dec.err.elane = 0
    ∧ r.dec.dp = ⟨⟨0, 0, 0, 0⟩, 0, 0⟩

/-! ### The encoder's operations -/

/-- R140: `ENC.NOP` (code 0x0) and `DEC.NOP` (code 0x8) change no register, push nothing, `rej` = 0. -/
def Obligations.NopsChangeNothing : Prop :=
  (∀ (lenW cmd : Nat),
    (field cmd 0 4 = 0x0 → decode lenW cmd = .ok .encNop) ∧ (field cmd 0 4 = 0x8 → decode lenW cmd = .ok .decNop))
  ∧ ∀ s : State, exec .encNop s = .next { s with rej := false } ∧ exec .decNop s = .next { s with rej := false }

/-- R94: `ENC.START` (code 0x1) in every state. -/
def Obligations.EncStartOpens : Prop :=
  (∀ (lenW cmd : Nat), field cmd 0 4 = 0x1 → decode lenW cmd = .ok .encStart)
  ∧ ∀ s : State, exec .encStart s = .next { s with enc := ⟨.run, 0, ⟨0, 0, ⟨0, 0, 0, 0⟩⟩⟩, rej := false }

/-- R95: in `RUN` with every draw in range, `ENC.BYTE` (code 0x2) pushes to each share the two bytes of the word whose
symbol at position `k` is that share's symbol of `EncBit(d[7-k], e_k, p_k)`, the more significant byte first, and the
count advances modulo 2^`LEN_W`; otherwise it is rejected, and nothing changes or is pushed. -/
def Obligations.EncByteEncodes : Prop :=
  (∀ (lenW cmd : Nat), field cmd 0 4 = 0x2 → ∃ d draws, decode lenW cmd = .ok (.encByte d draws))
  ∧ ∀ (s : State) (d : Byte) (draws : Octet DrawPair),
    (s.enc.state = .run → (∀ k : Fin 8, ¬ drawOutOfRange s.weights (d.getLsbD (7 - k.val)) (draws.get k)) →
      ∃ W : Quad ShareWord,
        (∀ (j : Fin 4) (k : Fin 8),
          (W.get j).extractLsb' (14 - 2 * k.val) 2
            = (encBit s.weights (d.getLsbD (7 - k.val)) (draws.get k)).get j)
        ∧ exec (.encByte d draws) s
          = .next
              { s with
                enc := { s.enc with count := (s.enc.count + 1) % 2 ^ s.lenW, dp := EncDatapath.zero }
                sh := Quad.ofFn fun j => s.sh.get j ++ [(W.get j).extractLsb' 8 8, (W.get j).extractLsb' 0 8]
                rej := false })
    ∧ ((s.enc.state ≠ .run ∨ ∃ k : Fin 8, drawOutOfRange s.weights (d.getLsbD (7 - k.val)) (draws.get k)) →
      exec (.encByte d draws) s = .next { s with rej := true })

/-- R96: `ENC.END` (code 0x3) closes an open invocation and is rejected otherwise. -/
def Obligations.EncEndCloses : Prop :=
  (∀ (lenW cmd : Nat), field cmd 0 4 = 0x3 → decode lenW cmd = .ok .encEnd)
  ∧ ∀ s : State,
    (s.enc.state = .run → exec .encEnd s = .next { s with enc := { s.enc with state := .done }, rej := false })
    ∧ (s.enc.state ≠ .run → exec .encEnd s = .next { s with rej := true })

/-- R97: `ENC.ABORT` (code 0x4) in every state. -/
def Obligations.EncAbortClears : Prop :=
  (∀ (lenW cmd : Nat), field cmd 0 4 = 0x4 → decode lenW cmd = .ok .encAbort)
  ∧ ∀ s : State, exec .encAbort s = .next { s with enc := ⟨.idle, 0, ⟨0, 0, ⟨0, 0, 0, 0⟩⟩⟩, rej := false }

/-! ### The decoder's operations -/

/-- R116 check 1, R151: fewer than three enabled lanes, whatever the lengths. The expected and the actual count are
recorded in registers of `LEN_W` bits, of which the spec states what they hold where the counts fit (log entry 13). -/
def Obligations.DecStartInsufficientShares : Prop :=
  ∀ (s : State) (mask : BitVec 4) (len : Quad Nat) (n : Nat),
    n = (mask.getLsbD 0).toNat + (mask.getLsbD 1).toNat + (mask.getLsbD 2).toNat + (mask.getLsbD 3).toNat → n < 3 →
      ∃ expected actual : Nat,
        (3 < 2 ^ s.lenW → expected = 3) ∧ (n < 2 ^ s.lenW → actual = n)
        ∧ expected < 2 ^ s.lenW ∧ actual < 2 ^ s.lenW
        ∧ exec (.decStart mask len) s
          = .next
              { s with
                dec :=
                  { state := .fault, mask := mask, n := BitVec.ofNat 3 n, rem := 0, pos := 0
                    err := ⟨.insufficientShares, 0, 0, 0, expected, actual, 0⟩, dp := DecDatapath.zero }
                rej := false }

/-- R116 check 2, R152: three or four enabled lanes whose lengths differ; `r` is the lowest enabled lane and `j` the
lowest enabled lane that differs from it. -/
def Obligations.DecStartUnequalLengths : Prop :=
  ∀ (s : State) (mask : BitVec 4) (len : Quad Nat) (n : Nat) (r j : Fin 4),
    n = (mask.getLsbD 0).toNat + (mask.getLsbD 1).toNat + (mask.getLsbD 2).toNat + (mask.getLsbD 3).toNat → 3 ≤ n →
    mask.getLsbD r.val = true → (∀ i < r, mask.getLsbD i.val = false) →
    mask.getLsbD j.val = true → len.get j ≠ len.get r →
    (∀ i < j, mask.getLsbD i.val = true → len.get i = len.get r) →
      exec (.decStart mask len) s
        = .next
            { s with
              dec :=
                { state := .fault, mask := mask, n := BitVec.ofNat 3 n, rem := 0, pos := 0
                  err := ⟨.lengthMismatch, 0, 0, 0, len.get r, len.get j, BitVec.ofNat 2 j.val⟩
                  dp := DecDatapath.zero }
              rej := false }

/-- R116 check 3, R153: three or four enabled lanes of one odd length. -/
def Obligations.DecStartOddLength : Prop :=
  ∀ (s : State) (mask : BitVec 4) (len : Quad Nat) (n : Nat) (r : Fin 4),
    n = (mask.getLsbD 0).toNat + (mask.getLsbD 1).toNat + (mask.getLsbD 2).toNat + (mask.getLsbD 3).toNat → 3 ≤ n →
    mask.getLsbD r.val = true → (∀ i < r, mask.getLsbD i.val = false) →
    (∀ i : Fin 4, mask.getLsbD i.val = true → len.get i = len.get r) → len.get r % 2 = 1 →
      exec (.decStart mask len) s
        = .next
            { s with
              dec :=
                { state := .fault, mask := mask, n := BitVec.ofNat 3 n, rem := 0, pos := 0
                  err := ⟨.lengthMismatch, 1, 0, 0, len.get r - 1, len.get r, BitVec.ofNat 2 r.val⟩
                  dp := DecDatapath.zero }
              rej := false }

/-- R116, all checks passed: three or four enabled lanes of one even length `L`; `DONE` at once when `L` is 0. -/
def Obligations.DecStartOpens : Prop :=
  ∀ (s : State) (mask : BitVec 4) (len : Quad Nat) (n : Nat) (L : Nat),
    n = (mask.getLsbD 0).toNat + (mask.getLsbD 1).toNat + (mask.getLsbD 2).toNat + (mask.getLsbD 3).toNat → 3 ≤ n →
    (∀ i : Fin 4, mask.getLsbD i.val = true → len.get i = L) → L % 2 = 0 →
      exec (.decStart mask len) s
        = .next
            { s with
              dec :=
                { state := if L = 0 then .done else .run, mask := mask, n := BitVec.ofNat 3 n
                  rem := L / 2, pos := 0, err := ErrorRegs.zero, dp := DecDatapath.zero }
              rej := false }

/-- R81: `DEC.START` accepts all sixteen masks; exactly the five with three or four lanes do not raise
`INSUFFICIENT_SHARES`. -/
def Obligations.LaneMasks : Prop :=
  ∀ (s : State) (mask : BitVec 4) (len : Quad Nat),
    ∃ t, exec (.decStart mask len) s = .next t ∧ t.rej = false ∧ t.dec.mask = mask
      ∧ (t.dec.err.ecode = .insufficientShares ↔ mask ∉ [0b0111, 0b1011, 0b1101, 0b1110, 0b1111])

/-- R71, R116: the declared lengths of disabled lanes are never looked at. -/
def Obligations.DecStartIgnoresDisabledLengths : Prop :=
  ∀ (s : State) (mask : BitVec 4) (len len' : Quad Nat),
    (∀ j : Fin 4, mask.getLsbD j.val = true → len.get j = len'.get j) →
      exec (.decStart mask len) s = exec (.decStart mask len') s

/-- R117, no corrupt column: the byte whose bit `7-k` is the vote of column `k` is pushed, the counters advance, and the
last word ends the invocation. That a word is left and that the position cannot leave its `POS_W` bits is part of the
invariant of `StepKeepsInvariant`. -/
def Obligations.DecWordPushesByte : Prop :=
  ∀ (s : State) (w : Quad ShareWord) (b : Byte), s.dec.state = .run →
    0 < s.dec.rem → s.dec.pos + 8 * s.dec.rem < 2 ^ (s.lenW + 2) →
    (∀ k : Fin 8, decPos s.dec.n (decColumn s.dec.mask w k) = .bit (b.getLsbD (7 - k.val))) →
      exec (.decWord w) s
        = .next
            { s with
              dec :=
                { s.dec with
                  pos := s.dec.pos + 8, rem := s.dec.rem - 1, state := if s.dec.rem = 1 then .done else .run
                  dp := DecDatapath.zero }
              out := s.out ++ [b]
              rej := false }

/-- R117, R154: with four lanes, the lowest column `k` whose count of equal pairs is 1 or 3 raises `CORRUPTED_INPUT`;
nothing is pushed and the counters keep their values. That a word is left and that the position cannot leave its `POS_W`
bits is part of the invariant of `StepKeepsInvariant`. -/
def Obligations.DecWordRaisesCorruptedInput : Prop :=
  ∀ (s : State) (w : Quad ShareWord) (k : Fin 8), s.dec.state = .run → s.dec.n = 4 → s.dec.mask = 0b1111 →
    0 < s.dec.rem → s.dec.pos + 8 * s.dec.rem < 2 ^ (s.lenW + 2) →
    (same (decColumn 0b1111 w k) = 1 ∨ same (decColumn 0b1111 w k) = 3) →
    (∀ i < k, same (decColumn 0b1111 w i) ≠ 1 ∧ same (decColumn 0b1111 w i) ≠ 3) →
      exec (.decWord w) s
        = .next
            { s with
              dec :=
                { s.dec with
                  state := .fault
                  err :=
                    ⟨.corruptedInput, 0, s.dec.pos + k.val
                    , BitVec.ofNat 3 (same (decColumn 0b1111 w k)), 0, 0, 0⟩
                  dp := DecDatapath.zero }
              rej := false }

/-- R113, R122: with three lanes `DEC.WORD` never raises: every word gives a byte. That `DEC_N` is the number of enabled
lanes, that a word is left and that the position cannot leave its `POS_W` bits is part of the invariant of
`StepKeepsInvariant`. -/
def Obligations.ThreeLaneWordsNeverFault : Prop :=
  ∀ (s : State) (w : Quad ShareWord), s.dec.state = .run → s.dec.n = 3 → popcount s.dec.mask = 3 →
    0 < s.dec.rem → s.dec.pos + 8 * s.dec.rem < 2 ^ (s.lenW + 2) →
    ∃ b : Byte,
      exec (.decWord w) s
        = .next
            { s with
              dec :=
                { s.dec with
                  pos := s.dec.pos + 8, rem := s.dec.rem - 1, state := if s.dec.rem = 1 then .done else .run
                  dp := DecDatapath.zero }
              out := s.out ++ [b]
              rej := false }

/-- R72, R117: words on disabled lanes have no effect whatever. -/
def Obligations.DecWordIgnoresDisabledLanes : Prop :=
  ∀ (s : State) (w w' : Quad ShareWord), (∀ j : Fin 4, s.dec.mask.getLsbD j.val = true → w.get j = w'.get j) →
    exec (.decWord w) s = exec (.decWord w') s

/-- R118: `DEC.ABORT` (code 0xC) in every state clears every decoder register. -/
def Obligations.DecAbortClears : Prop :=
  (∀ (lenW cmd : Nat), field cmd 0 4 = 0xC → decode lenW cmd = .ok .decAbort)
  ∧ ∀ s : State,
    exec .decAbort s
      = .next
          { s with
            dec := ⟨.idle, 0, 0, 0, 0, ⟨.none, 0, 0, 0, 0, 0, 0⟩, ⟨⟨0, 0, 0, 0⟩, 0, 0⟩⟩
            rej := false }

/-- R157: what a fault raised by `DEC.START` or `DEC.WORD` leaves: the mask and count of this invocation, the counters
cleared or kept, the fields the error does not have at 0, nothing pushed, the encoder untouched. -/
def Obligations.FaultEntryEffects : Prop :=
  ∀ (i : Instr) (s t : State), exec i s = .next t → t.dec.state = .fault → t.rej = false → isEnc i = false →
    i ≠ .decNop →
      t.enc = s.enc ∧ t.sh = s.sh ∧ t.out = s.out
      ∧ ((∃ mask len, i = .decStart mask len ∧ t.dec.mask = mask ∧ t.dec.n.toNat = popcount mask
            ∧ t.dec.rem = 0 ∧ t.dec.pos = 0 ∧ t.dec.err.epos = 0 ∧ t.dec.err.esame = 0
            ∧ (t.dec.err.ecode = .insufficientShares ∨ t.dec.err.ecode = .lengthMismatch))
          ∨ (∃ w, i = .decWord w ∧ t.dec.mask = s.dec.mask ∧ t.dec.n = s.dec.n
            ∧ t.dec.rem = s.dec.rem ∧ t.dec.pos = s.dec.pos ∧ t.dec.err.ecode = .corruptedInput
            ∧ t.dec.err.esub = 0 ∧ t.dec.err.eexp = 0 ∧ t.dec.err.eact = 0 ∧ t.dec.err.elane = 0))

/-! ### Rules over all commands -/

/-- R141: every command of every state completes; it is rejected exactly when the table of R141 lists it or its code is
reserved; and a rejected command changes nothing but the output `rej`, which is 1, where it is 0 after any other. -/
def Obligations.RejectedExactlyAsListed : Prop :=
  (∀ (i : Instr) (s : State),
    ∃ t, exec i s = .next t ∧ (t.rej = true ↔ rejectedWhen i s) ∧ (t.rej = true → t = { s with rej := true }))
  ∧ (∀ (s : State) (cmd : Nat) (rest : List HostEvent) (e : DecodeError),
    s.port = .command cmd :: rest → decode s.lenW cmd = .error e → step s = .next { s with port := rest, rej := true })

/-- R33, R31, R5: the invariant holds after reset, for every admissible value of the OPEN parameters. -/
def Obligations.InvariantAtReset : Prop :=
  ∀ (lenW : Nat) (weights : Weights), 1 ≤ lenW → weights.admissible → State.Inv (machineFor lenW weights).reset

/-- R33: the invariant holds after every step from a state in which it holds. -/
def Obligations.StepKeepsInvariant : Prop :=
  ∀ s t : State, s.Inv → step s = .next t → t.Inv

/-- R5, R25: the OPEN parameters are those the machine was built with: no event changes `LEN_W` or a weight, and the
machine of the host's interface is the one built with the defaults that R5 states, 64, 1 and 8. -/
def Obligations.ParametersAreFixed : Prop :=
  (∀ s t : State, step s = .next t → t.lenW = s.lenW ∧ t.weights = s.weights)
  ∧ (∀ (lenW : Nat) (weights : Weights),
    (State.resetFor lenW weights).lenW = lenW ∧ (State.resetFor lenW weights).weights = weights)
  ∧ core = machineFor 64 ⟨1, 8⟩

/-- R159: `FAULT` and its error registers stay under every event but `DEC.ABORT`, `DEC.START` and reset. -/
def Obligations.FaultIsSticky : Prop :=
  ∀ s t : State, s.dec.state = .fault → step s = .next t →
    t.dec = s.dec
    ∨ (∃ rest, s.port = .rst :: rest)
    ∨ (∃ cmd rest, s.port = .command cmd :: rest
        ∧ (decode s.lenW cmd = .ok .decAbort ∨ ∃ mask len, decode s.lenW cmd = .ok (.decStart mask len)))

/-- R102: no step takes the encoder into the value 3 of `ENC_STATE`, and no command of the encoder touches an error
register. -/
def Obligations.EncoderCannotFault : Prop :=
  (∀ s t : State, s.enc.state ≠ .fault → step s = .next t → t.enc.state ≠ .fault)
  ∧ (∀ (i : Instr) (s t : State), isEnc i = true → exec i s = .next t → t.dec.err = s.dec.err)

/-- Frame of the encoder's commands (R7, R10, R25, R142): the decoder, its stream, the OPEN parameters and the waiting
events are unchanged; the shares change under `ENC.BYTE` alone; `ENC.NOP` changes no encoder register, `ENC.BYTE` keeps
`ENC_STATE`, and `ENC.END` keeps `ENC_COUNT`. -/
def Obligations.EncoderCommandFrame : Prop :=
  ∀ (i : Instr) (s t : State), isEnc i = true → exec i s = .next t →
    t.dec = s.dec ∧ t.out = s.out ∧ t.lenW = s.lenW ∧ t.weights = s.weights ∧ t.port = s.port
    ∧ ((∀ d draws, i ≠ .encByte d draws) → t.sh = s.sh)
    ∧ (i = .encNop → t.enc = s.enc)
    ∧ (∀ d draws, i = .encByte d draws → t.enc.state = s.enc.state)
    ∧ (i = .encEnd → t.enc.count = s.enc.count ∧ t.enc.dp = s.enc.dp)

/-- Frame of the decoder's commands (R7, R10, R25, R142): the encoder, its streams, the OPEN parameters and the waiting
events are unchanged; the output changes under `DEC.WORD` alone; `DEC.NOP` changes no decoder register, and `DEC.WORD` keeps
`DEC_MASK` and `DEC_N`. -/
def Obligations.DecoderCommandFrame : Prop :=
  ∀ (i : Instr) (s t : State), isEnc i = false → exec i s = .next t →
    t.enc = s.enc ∧ t.sh = s.sh ∧ t.lenW = s.lenW ∧ t.weights = s.weights ∧ t.port = s.port
    ∧ ((∀ w, i ≠ .decWord w) → t.out = s.out)
    ∧ (i = .decNop → t.dec = s.dec)
    ∧ (∀ w, i = .decWord w → t.dec.mask = s.dec.mask ∧ t.dec.n = s.dec.n)

/-- R41, R49, R50: a command appends to a stream or leaves it: two bytes to each share by an accepted `ENC.BYTE`, one
byte to the output by an accepted `DEC.WORD` that does not fault, and nothing else. -/
def Obligations.StreamsOnlyGrow : Prop :=
  ∀ (i : Instr) (s t : State), exec i s = .next t →
    (∀ j : Fin 4, ∃ tail, t.sh.get j = s.sh.get j ++ tail
      ∧ ((∃ d draws, i = .encByte d draws ∧ t.rej = false ∧ tail.length = 2)
          ∨ ((∀ d draws, i = .encByte d draws → t.rej = true) ∧ tail = [])))
    ∧ (∃ tail, t.out = s.out ++ tail
      ∧ ((∃ w, i = .decWord w ∧ t.rej = false ∧ t.dec.state ≠ .fault ∧ tail.length = 1)
          ∨ ((∀ w, i = .decWord w → t.rej = true ∨ t.dec.state = .fault) ∧ tail = [])))

/-- R7, R8: what a unit does depends on its own registers, the tables, the width of its registers and its own streams
only. -/
def Obligations.UnitsDoNotSeeEachOther : Prop :=
  ∀ (i : Instr) (s s' t t' : State), exec i s = .next t → exec i s' = .next t' → s.lenW = s'.lenW →
    (isEnc i = true → s.enc = s'.enc → s.weights = s'.weights → s.sh = s'.sh →
      t.enc = t'.enc ∧ t.sh = t'.sh ∧ t.rej = t'.rej)
    ∧ (isEnc i = false → s.dec = s'.dec → s.out = s'.out →
      t.dec = t'.dec ∧ t.out = t'.out ∧ t.rej = t'.rej)

/-- R7: commands of the two units may be interleaved in either order: each unit ends the same and answers the same
`rej`. -/
def Obligations.UnitsCommute : Prop :=
  ∀ (i j : Instr) (s : State), isEnc i = true → isEnc j = false →
    ∃ a ab b ba, exec i s = .next a ∧ exec j a = .next ab ∧ exec j s = .next b ∧ exec i b = .next ba
      ∧ { ab with rej := false } = { ba with rej := false } ∧ a.rej = ba.rej ∧ b.rej = ab.rej

/-- R17, R18: `DEC.START` sets the two counters from the common length `L`, and each word that does not fault moves
`DEC_POS` up by 8 without wrapping and `DEC_REM` down by 1, so that `DEC_POS` + 8·`DEC_REM` stays what it was. -/
def Obligations.PositionAndRemainderBalance : Prop :=
  (∀ (s t : State) (mask : BitVec 4) (len : Quad Nat) (j : Fin 4), exec (.decStart mask len) s = .next t →
    t.dec.state ≠ .fault → mask.getLsbD j.val = true →
      t.dec.pos + 8 * t.dec.rem = 4 * len.get j)
  ∧ (∀ (s t : State) (w : Quad ShareWord), s.Inv → exec (.decWord w) s = .next t → t.rej = false →
      t.dec.state ≠ .fault →
        t.dec.pos = s.dec.pos + 8 ∧ t.dec.rem + 1 = s.dec.rem
        ∧ t.dec.pos + 8 * t.dec.rem = s.dec.pos + 8 * s.dec.rem)

/-! ### Tables and datapath functions -/

/-- R62 to R65: every zero entry is (A, A, B, B) with A < B, every one entry is all identical or (0, 1, 2, 3), and their
counts of equal pairs are 2 and 6 or 0. -/
def Obligations.CatalogEntries : Prop :=
  (∀ e < 6, (zcat e).l0 = (zcat e).l1 ∧ (zcat e).l2 = (zcat e).l3 ∧ (zcat e).l0 < (zcat e).l2
    ∧ same (zcat e).toList = 2)
  ∧ (∀ o < 4, ocat o = ⟨BitVec.ofNat 2 o, BitVec.ofNat 2 o, BitVec.ofNat 2 o, BitVec.ofNat 2 o⟩
    ∧ same (ocat o).toList = 6)
  ∧ ocat 4 = ⟨0, 1, 2, 3⟩ ∧ same (ocat 4).toList = 0

/-- R64, R63: for every weighting, the draws below `NO` select each all-identical entry `W_IDENT` times and the
all-distinct entry `W_DIST` times. -/
def Obligations.DrawsGiveEntriesTheirWeight : Prop :=
  ∀ w : Weights,
    (∀ o < 4, ((List.range w.no).filter fun e => oIdx w e == o).length = w.wIdent)
    ∧ ((List.range w.no).filter fun e => oIdx w e == 4).length = w.wDist

/-- R66: the permutation ROM is the closed form, row by row. -/
def Obligations.PermTableIsClosedForm : Prop :=
  ∀ p < 24, (perm p).toList.map Fin.val = permClosed p

/-- R110, R93: `UnpackSym(w, k)` is bits `[15-2k : 14-2k]`; it gives back the symbol packed at each position, and packing
the symbols of a word gives back the word. -/
def Obligations.PackAndUnpackAreInverse : Prop :=
  (∀ (w : ShareWord) (k : Fin 8),
    (unpackSym w k).getLsbD 1 = w.getLsbD (15 - 2 * k.val) ∧ (unpackSym w k).getLsbD 0 = w.getLsbD (14 - 2 * k.val))
  ∧ (∀ (y : Fin 8 → Symbol) (k : Fin 8), unpackSym (packWord y) k = y k)
  ∧ (∀ w : ShareWord, packWord (unpackSym w) = w)

/-- R91: the permutation network changes the order of the symbols and never their multiset. -/
def Obligations.PermuteKeepsTheSymbols : Prop :=
  ∀ (t : Quad Symbol), ∀ p < 24, (permute t p).toList.Perm t.toList ∧ same (permute t p).toList = same t.toList

/-- R111: `Same` is the number of unordered pairs of places with equal symbols, and does not depend on their order. -/
def Obligations.SameCountsEqualPairs : Prop :=
  (∀ c : List Symbol,
    same c = (Finset.univ.filter fun p : Fin c.length × Fin c.length => p.1 < p.2 ∧ c.get p.1 = c.get p.2).card)
  ∧ ∀ c c' : List Symbol, c.Perm c' → same c = same c'

/-- R112, R113: the two decision rules on the counts that can arise, and the rows of four lanes that cannot; the
three-lane rule declares no corruption. -/
def Obligations.DecisionRules : Prop :=
  classify4 2 = .bit false ∧ classify4 0 = .bit true ∧ classify4 6 = .bit true ∧ classify4 1 = .corrupt
  ∧ classify4 3 = .corrupt ∧ classify4 4 = .corrupt ∧ classify4 5 = .corrupt
  ∧ classify3 1 = .bit false ∧ classify3 0 = .bit true ∧ classify3 3 = .bit true
  ∧ ∀ n, n ≠ 2 → classify3 n ≠ .corrupt

/-- R114: the counts of equal pairs that can arise. -/
def Obligations.AchievableCounts : Prop :=
  ∀ c : List Symbol,
    (c.length = 4 → same c ∈ [0, 1, 2, 3, 6]) ∧ (c.length = 3 → same c ∈ [0, 1, 3])

/-- R123: what a word does depends neither on which share is on which lane nor on which lane is disabled: moving the words
and the mask bits of the lanes together by any permutation gives the same byte, or the same fault. -/
def Obligations.LanesAreAnonymous : Prop :=
  ∀ (s t : State) (mask' : BitVec 4) (w w' : Quad ShareWord) (σ : Equiv.Perm (Fin 4)),
    (∀ j : Fin 4, mask'.getLsbD (σ j).val = s.dec.mask.getLsbD j.val) → (∀ j : Fin 4, w'.get (σ j) = w.get j) →
    exec (.decWord w) s = .next t →
      exec (.decWord w') { s with dec := { s.dec with mask := mask' } }
        = .next { t with dec := { t.dec with mask := mask' } }

/-- R120, one position: every set of three or four lanes of an encoded column votes the bit back, for every weighting and
all draws in range. -/
def Obligations.VoteRecoversTheBit : Prop :=
  ∀ (w : Weights) (b : Bool) (dp : DrawPair) (mask : BitVec 4), ¬ drawOutOfRange w b dp → 3 ≤ popcount mask →
    decPos (BitVec.ofNat 3 (popcount mask)) ((enabledLanes mask).map fun j => (encBit w b dp).get j) = .bit b

/-- R121: with four lanes, every change of one symbol of an encoded column is detected. -/
def Obligations.SingleSymbolChangeIsDetected : Prop :=
  ∀ (w : Weights) (b : Bool) (dp : DrawPair) (j : Fin 4) (x : Symbol), ¬ drawOutOfRange w b dp →
    x ≠ (encBit w b dp).get j →
      decPos 4 (allLanes.map fun i => if i = j then x else (encBit w b dp).get i) = .corrupt

/-- R100: how many draw pairs in range give each column, for every weighting: 4 for every two-and-two column of a zero
bit; 24·`W_IDENT` for every all-identical and `W_DIST` for every all-distinct column of a one bit; none otherwise. -/
def Obligations.EmittedColumns : Prop :=
  ∀ (w : Weights) (c : Quad Symbol),
    columnCount w false c = (if same c.toList = 2 then 4 else 0)
    ∧ columnCount w true c
      = (if same c.toList = 6 then 24 * w.wIdent else if same c.toList = 0 then w.wDist else 0)

/-- R101, one share: the symbol of one share is uniform, for either bit and every weighting. -/
def Obligations.OneShareIsUniform : Prop :=
  ∀ (w : Weights) (b : Bool) (i : Fin 4) (a : Symbol),
    4 * ((drawPairs w b).filter fun dp => (encBit w b dp).get i == a).length = (drawPairs w b).length

/-- R101, two shares: the joint distribution of two shares is the same for both bits exactly at the weighting
`W_DIST` = 8·`W_IDENT`. -/
def Obligations.TwoSharesHideTheBitExactlyAtEightToOne : Prop :=
  ∀ (w : Weights) (i j : Fin 4), i ≠ j →
    ((∀ a c : Symbol,
        pairCount w false i j a c * (drawPairs w true).length = pairCount w true i j a c * (drawPairs w false).length)
      ↔ w.wDist = 8 * w.wIdent)

/-- R13, R93: the shift register and the packers of the encoder, one bit after another, end with the words of the eight
bits taken at once; `ENC_SR` and `ENC_K` end at 0. -/
def Obligations.SerialEncoderAgrees : Prop :=
  ∀ (w : Weights) (d : Byte) (draws : Octet DrawPair),
    encSerial w d draws = { sr := 0, k := 0, pk := encWords w d draws }

/-- R24, R117: the lane registers and the accumulator of the decoder, one position after another, end with the byte of
the eight columns voted at once, or stop at the lowest corrupt column with its count. -/
def Obligations.SerialDecoderAgrees : Prop :=
  ∀ (n : BitVec 3) (mask : BitVec 4) (w : Quad ShareWord),
    decSerial n mask w
      = match firstCorrupt n mask w with
        | some k => .error (BitVec.ofNat 3 k.val, same (decColumn mask w k))
        | none => .ok { ln := ⟨0, 0, 0, 0⟩, k := 0, acc := wordByte n mask w }

/-! ### Whole streams -/

/-- R98, R47: from any state, `ENCODE S WITH R` with draws in range ends in `DONE` with the count of the source's bytes,
and has pushed to share `j` twice as many bytes, whose symbol at position `q` is that share's symbol of the encoding of
source bit `q`; nothing else has changed but `rej`. -/
def Obligations.EncodeWholeStream : Prop :=
  ∀ (src : List (Byte × Octet DrawPair)) (s : State),
    (∀ x ∈ src, ∀ k : Fin 8, ¬ drawOutOfRange s.weights (x.1.getLsbD (7 - k.val)) (x.2.get k)) →
      ∃ tails : Quad (List Byte),
        runOps (encodeOps src) s
          = .next
              { s with
                enc := { state := .done, count := src.length % 2 ^ s.lenW, dp := EncDatapath.zero }
                sh := Quad.ofFn fun j => s.sh.get j ++ tails.get j
                rej := false }
        ∧ ∀ j : Fin 4, (tails.get j).length = 2 * src.length
          ∧ ∀ (i : Nat) (k : Fin 8) (x : Byte × Octet DrawPair), src[i]? = some x →
            symAt (tails.get j) (8 * i + k.val)
              = (encBit s.weights (x.1.getLsbD (7 - k.val)) (x.2.get k)).get j

/-- R119: from any state, `DECODE` of lanes of one even length `2m` pushes the votes of its `8m` positions and ends in
`DONE`; or, where a column is corrupt, pushes the bytes of the words before the one that holds the lowest corrupt position
`q` and ends in `FAULT` with `DEC_EPOS` = `q`. -/
def Obligations.DecodeWholeStream : Prop :=
  ∀ (s : State) (mask : BitVec 4) (x : Quad (List Byte)) (m : Nat), 3 ≤ popcount mask →
    (∀ j : Fin 4, mask.getLsbD j.val = true → (x.get j).length = 2 * m) → 2 * m < 2 ^ s.lenW →
      ((∀ p < 8 * m, decPos (BitVec.ofNat 3 (popcount mask)) (columnAt mask x p) ≠ .corrupt) →
        ∃ t bytes, decodeOp mask x s = .next t ∧ t.dec.state = .done ∧ t.out = s.out ++ bytes ∧ bytes.length = m
          ∧ ∀ p < 8 * m, decPos (BitVec.ofNat 3 (popcount mask)) (columnAt mask x p) = .bit (bitAt bytes p))
      ∧ (∀ q < 8 * m, decPos (BitVec.ofNat 3 (popcount mask)) (columnAt mask x q) = .corrupt →
        (∀ p < q, decPos (BitVec.ofNat 3 (popcount mask)) (columnAt mask x p) ≠ .corrupt) →
          ∃ t bytes, decodeOp mask x s = .next t ∧ t.dec.state = .fault ∧ t.dec.err.ecode = .corruptedInput
            ∧ t.dec.err.epos = q ∧ t.out = s.out ++ bytes ∧ bytes.length = q / 8
            ∧ ∀ p < 8 * (q / 8), decPos (BitVec.ofNat 3 (popcount mask)) (columnAt mask x p) = .bit (bitAt bytes p))

/-- R120, R123: for every source, all draws in range, every weighting and every set of three or four lanes, decoding the
shares of the encode, on the lanes in any order, ends in `DONE` having pushed exactly the source. -/
def Obligations.RoundTripOfEverySource : Prop :=
  ∀ (src : List (Byte × Octet DrawPair)) (s : State) (mask : BitVec 4) (lane : Fin 4 → Fin 4),
    (∀ x ∈ src, ∀ k : Fin 8, ¬ drawOutOfRange s.weights (x.1.getLsbD (7 - k.val)) (x.2.get k)) →
    3 ≤ popcount mask → Function.Injective lane → 2 * src.length < 2 ^ s.lenW →
      ∃ t u tails, runOps (encodeOps src) s = .next t
        ∧ (∀ j : Fin 4, t.sh.get j = s.sh.get j ++ Quad.get tails j)
        ∧ decodeOp mask (Quad.ofFn fun j => tails.get (lane j)) t = .next u
        ∧ u.dec.state = .done ∧ u.out = s.out ++ src.map Prod.fst
end

