-- ==== Sys2Proof/Laws/State.lean ====
section
/-! SUPPORT. One lemma per field of `State` and per named operation, each true by unfolding that operation once, so that no
later proof unfolds a record update. -/

namespace Sys2Proof.Machine

variable (s : State)

@[simp] theorem reject_enc : (reject s).enc = s.enc := rfl
@[simp] theorem reject_dec : (reject s).dec = s.dec := rfl
@[simp] theorem reject_weights : (reject s).weights = s.weights := rfl
@[simp] theorem reject_lenW : (reject s).lenW = s.lenW := rfl
@[simp] theorem reject_port : (reject s).port = s.port := rfl
@[simp] theorem reject_rej : (reject s).rej = true := rfl
@[simp] theorem reject_sh : (reject s).sh = s.sh := rfl
@[simp] theorem reject_out : (reject s).out = s.out := rfl

@[simp] theorem accept_enc : (accept s).enc = s.enc := rfl
@[simp] theorem accept_dec : (accept s).dec = s.dec := rfl
@[simp] theorem accept_weights : (accept s).weights = s.weights := rfl
@[simp] theorem accept_lenW : (accept s).lenW = s.lenW := rfl
@[simp] theorem accept_port : (accept s).port = s.port := rfl
@[simp] theorem accept_rej : (accept s).rej = false := rfl
@[simp] theorem accept_sh : (accept s).sh = s.sh := rfl
@[simp] theorem accept_out : (accept s).out = s.out := rfl

@[simp] theorem clearEnc_enc : (clearEnc s).enc = EncRegs.zero := rfl
@[simp] theorem clearEnc_dec : (clearEnc s).dec = s.dec := rfl
@[simp] theorem clearEnc_weights : (clearEnc s).weights = s.weights := rfl
@[simp] theorem clearEnc_lenW : (clearEnc s).lenW = s.lenW := rfl
@[simp] theorem clearEnc_port : (clearEnc s).port = s.port := rfl
@[simp] theorem clearEnc_rej : (clearEnc s).rej = s.rej := rfl
@[simp] theorem clearEnc_sh : (clearEnc s).sh = s.sh := rfl
@[simp] theorem clearEnc_out : (clearEnc s).out = s.out := rfl

@[simp] theorem clearDec_enc : (clearDec s).enc = s.enc := rfl
@[simp] theorem clearDec_dec : (clearDec s).dec = DecRegs.zero := rfl
@[simp] theorem clearDec_weights : (clearDec s).weights = s.weights := rfl
@[simp] theorem clearDec_lenW : (clearDec s).lenW = s.lenW := rfl
@[simp] theorem clearDec_port : (clearDec s).port = s.port := rfl
@[simp] theorem clearDec_rej : (clearDec s).rej = s.rej := rfl
@[simp] theorem clearDec_sh : (clearDec s).sh = s.sh := rfl
@[simp] theorem clearDec_out : (clearDec s).out = s.out := rfl

@[simp] theorem pushShares_enc (w : Quad ShareWord) : (pushShares w s).enc = s.enc := rfl
@[simp] theorem pushShares_dec (w : Quad ShareWord) : (pushShares w s).dec = s.dec := rfl
@[simp] theorem pushShares_weights (w : Quad ShareWord) : (pushShares w s).weights = s.weights := rfl
@[simp] theorem pushShares_lenW (w : Quad ShareWord) : (pushShares w s).lenW = s.lenW := rfl
@[simp] theorem pushShares_port (w : Quad ShareWord) : (pushShares w s).port = s.port := rfl
@[simp] theorem pushShares_rej (w : Quad ShareWord) : (pushShares w s).rej = s.rej := rfl
@[simp] theorem pushShares_sh (w : Quad ShareWord) : (pushShares w s).sh = Quad.ofFn fun j => s.sh.get j ++ wordBytes (w.get j) := rfl
@[simp] theorem pushShares_out (w : Quad ShareWord) : (pushShares w s).out = s.out := rfl

@[simp] theorem pushOut_enc (b : Byte) : (pushOut b s).enc = s.enc := rfl
@[simp] theorem pushOut_dec (b : Byte) : (pushOut b s).dec = s.dec := rfl
@[simp] theorem pushOut_weights (b : Byte) : (pushOut b s).weights = s.weights := rfl
@[simp] theorem pushOut_lenW (b : Byte) : (pushOut b s).lenW = s.lenW := rfl
@[simp] theorem pushOut_port (b : Byte) : (pushOut b s).port = s.port := rfl
@[simp] theorem pushOut_rej (b : Byte) : (pushOut b s).rej = s.rej := rfl
@[simp] theorem pushOut_sh (b : Byte) : (pushOut b s).sh = s.sh := rfl
@[simp] theorem pushOut_out (b : Byte) : (pushOut b s).out = s.out ++ [b] := rfl

@[simp] theorem raiseError_enc (e : ErrorRegs) : (raiseError e s).enc = s.enc := rfl
@[simp] theorem raiseError_dec (e : ErrorRegs) : (raiseError e s).dec = { s.dec with state := .fault, err := e, dp := DecDatapath.zero } := rfl
@[simp] theorem raiseError_weights (e : ErrorRegs) : (raiseError e s).weights = s.weights := rfl
@[simp] theorem raiseError_lenW (e : ErrorRegs) : (raiseError e s).lenW = s.lenW := rfl
@[simp] theorem raiseError_port (e : ErrorRegs) : (raiseError e s).port = s.port := rfl
@[simp] theorem raiseError_rej (e : ErrorRegs) : (raiseError e s).rej = false := rfl
@[simp] theorem raiseError_sh (e : ErrorRegs) : (raiseError e s).sh = s.sh := rfl
@[simp] theorem raiseError_out (e : ErrorRegs) : (raiseError e s).out = s.out := rfl

@[simp] theorem leaveFault_enc : (leaveFault s).enc = s.enc := rfl
@[simp] theorem leaveFault_dec : (leaveFault s).dec = DecRegs.zero := rfl
@[simp] theorem leaveFault_weights : (leaveFault s).weights = s.weights := rfl
@[simp] theorem leaveFault_lenW : (leaveFault s).lenW = s.lenW := rfl
@[simp] theorem leaveFault_port : (leaveFault s).port = s.port := rfl
@[simp] theorem leaveFault_rej : (leaveFault s).rej = false := rfl
@[simp] theorem leaveFault_sh : (leaveFault s).sh = s.sh := rfl
@[simp] theorem leaveFault_out : (leaveFault s).out = s.out := rfl

@[simp] theorem applyReset_enc : (applyReset s).enc = EncRegs.zero := rfl
@[simp] theorem applyReset_dec : (applyReset s).dec = DecRegs.zero := rfl
@[simp] theorem applyReset_weights : (applyReset s).weights = s.weights := rfl
@[simp] theorem applyReset_lenW : (applyReset s).lenW = s.lenW := rfl
@[simp] theorem applyReset_port : (applyReset s).port = s.port := rfl
@[simp] theorem applyReset_rej : (applyReset s).rej = s.rej := rfl
@[simp] theorem applyReset_sh : (applyReset s).sh = s.sh := rfl
@[simp] theorem applyReset_out : (applyReset s).out = s.out := rfl

@[simp] theorem emptyShares_enc : (emptyShares s).enc = s.enc := rfl
@[simp] theorem emptyShares_dec : (emptyShares s).dec = s.dec := rfl
@[simp] theorem emptyShares_weights : (emptyShares s).weights = s.weights := rfl
@[simp] theorem emptyShares_lenW : (emptyShares s).lenW = s.lenW := rfl
@[simp] theorem emptyShares_port : (emptyShares s).port = s.port := rfl
@[simp] theorem emptyShares_rej : (emptyShares s).rej = s.rej := rfl
@[simp] theorem emptyShares_sh : (emptyShares s).sh = ⟨[], [], [], []⟩ := rfl
@[simp] theorem emptyShares_out : (emptyShares s).out = s.out := rfl

@[simp] theorem emptyOut_enc : (emptyOut s).enc = s.enc := rfl
@[simp] theorem emptyOut_dec : (emptyOut s).dec = s.dec := rfl
@[simp] theorem emptyOut_weights : (emptyOut s).weights = s.weights := rfl
@[simp] theorem emptyOut_lenW : (emptyOut s).lenW = s.lenW := rfl
@[simp] theorem emptyOut_port : (emptyOut s).port = s.port := rfl
@[simp] theorem emptyOut_rej : (emptyOut s).rej = s.rej := rfl
@[simp] theorem emptyOut_sh : (emptyOut s).sh = s.sh := rfl
@[simp] theorem emptyOut_out : (emptyOut s).out = [] := rfl

@[simp] theorem placeCommand_enc (cmd : Nat) : (placeCommand cmd s).enc = s.enc := rfl
@[simp] theorem placeCommand_dec (cmd : Nat) : (placeCommand cmd s).dec = s.dec := rfl
@[simp] theorem placeCommand_weights (cmd : Nat) : (placeCommand cmd s).weights = s.weights := rfl
@[simp] theorem placeCommand_lenW (cmd : Nat) : (placeCommand cmd s).lenW = s.lenW := rfl
@[simp] theorem placeCommand_port (cmd : Nat) : (placeCommand cmd s).port = .command cmd :: s.port := rfl
@[simp] theorem placeCommand_rej (cmd : Nat) : (placeCommand cmd s).rej = s.rej := rfl
@[simp] theorem placeCommand_sh (cmd : Nat) : (placeCommand cmd s).sh = s.sh := rfl
@[simp] theorem placeCommand_out (cmd : Nat) : (placeCommand cmd s).out = s.out := rfl

@[simp] theorem latchMask_enc (mask : BitVec 4) : (latchMask mask s).enc = s.enc := rfl
@[simp] theorem latchMask_dec (mask : BitVec 4) : (latchMask mask s).dec = { DecRegs.zero with mask := mask, n := BitVec.ofNat 3 (popcount mask) } := rfl
@[simp] theorem latchMask_weights (mask : BitVec 4) : (latchMask mask s).weights = s.weights := rfl
@[simp] theorem latchMask_lenW (mask : BitVec 4) : (latchMask mask s).lenW = s.lenW := rfl
@[simp] theorem latchMask_port (mask : BitVec 4) : (latchMask mask s).port = s.port := rfl
@[simp] theorem latchMask_rej (mask : BitVec 4) : (latchMask mask s).rej = s.rej := rfl
@[simp] theorem latchMask_sh (mask : BitVec 4) : (latchMask mask s).sh = s.sh := rfl
@[simp] theorem latchMask_out (mask : BitVec 4) : (latchMask mask s).out = s.out := rfl

@[simp] theorem openDecode_enc (len : Nat) : (openDecode len s).enc = s.enc := rfl
@[simp] theorem openDecode_dec (len : Nat) : (openDecode len s).dec = { s.dec with rem := len / 2, pos := 0, state := if len = 0 then .done else .run } := rfl
@[simp] theorem openDecode_weights (len : Nat) : (openDecode len s).weights = s.weights := rfl
@[simp] theorem openDecode_lenW (len : Nat) : (openDecode len s).lenW = s.lenW := rfl
@[simp] theorem openDecode_port (len : Nat) : (openDecode len s).port = s.port := rfl
@[simp] theorem openDecode_rej (len : Nat) : (openDecode len s).rej = false := rfl
@[simp] theorem openDecode_sh (len : Nat) : (openDecode len s).sh = s.sh := rfl
@[simp] theorem openDecode_out (len : Nat) : (openDecode len s).out = s.out := rfl

@[simp] theorem advanceDecode_enc (b : Byte) : (advanceDecode b s).enc = s.enc := rfl
@[simp] theorem advanceDecode_dec (b : Byte) : (advanceDecode b s).dec = { s.dec with
        pos := addPos s.lenW s.dec.pos 8, rem := prevCount s.lenW s.dec.rem
        state := if prevCount s.lenW s.dec.rem = 0 then .done else .run, dp := DecDatapath.zero } := rfl
@[simp] theorem advanceDecode_weights (b : Byte) : (advanceDecode b s).weights = s.weights := rfl
@[simp] theorem advanceDecode_lenW (b : Byte) : (advanceDecode b s).lenW = s.lenW := rfl
@[simp] theorem advanceDecode_port (b : Byte) : (advanceDecode b s).port = s.port := rfl
@[simp] theorem advanceDecode_rej (b : Byte) : (advanceDecode b s).rej = false := rfl
@[simp] theorem advanceDecode_sh (b : Byte) : (advanceDecode b s).sh = s.sh := rfl
@[simp] theorem advanceDecode_out (b : Byte) : (advanceDecode b s).out = s.out ++ [b] := rfl

end Sys2Proof.Machine
end

