-- ==== Sys2Proof/Laws/Ops.lean ====
section
/-! SUPPORT. What each shared operation can do, said once: the accessors of the fixed-size groups, the lanes of a mask,
the comparator array, the counters, the events at the ports, and one inversion lemma for each meaning that has more than one
outcome. -/

namespace Sys2Proof

variable {α : Type}

@[simp] theorem Quad.get_ofFn (f : Fin 4 → α) (j : Fin 4) : (Quad.ofFn f).get j = f j := by
  fin_cases j <;> rfl

@[simp] theorem Octet.get_ofFn (f : Fin 8 → α) (k : Fin 8) : (Octet.ofFn f).get k = f k := by
  fin_cases k <;> rfl

theorem Quad.ext_get {q r : Quad α} (h : ∀ j, q.get j = r.get j) : q = r := by
  cases q
  cases r
  simp only [Quad.mk.injEq]
  exact ⟨h 0, h 1, h 2, h 3⟩

theorem Octet.ext_get {q r : Octet α} (h : ∀ k, q.get k = r.get k) : q = r := by
  cases q
  cases r
  simp only [Octet.mk.injEq]
  exact ⟨h 0, h 1, h 2, h 3, h 4, h 5, h 6, h 7⟩

theorem Octet.mem_toList {o : Octet α} {x : α} : x ∈ o.toList ↔ ∃ k, o.get k = x := by
  constructor
  · intro h
    simp only [Octet.toList, List.mem_cons, List.not_mem_nil, or_false] at h
    obtain h | h | h | h | h | h | h | h := h
    exacts [⟨0, h.symm⟩, ⟨1, h.symm⟩, ⟨2, h.symm⟩, ⟨3, h.symm⟩, ⟨4, h.symm⟩, ⟨5, h.symm⟩, ⟨6, h.symm⟩, ⟨7, h.symm⟩]
  · rintro ⟨k, rfl⟩
    fin_cases k <;> simp [Octet.toList, Octet.get]

@[simp] theorem mem_allLanes (j : Fin 4) : j ∈ allLanes := by
  fin_cases j <;> decide

@[simp] theorem mem_allColumns (k : Fin 8) : k ∈ allColumns := by
  fin_cases k <;> decide

end Sys2Proof

/-! The fields of a concatenation, for the words the encoder builds by appending. -/

namespace Sys2Proof

theorem extract_append_high {a b : Nat} (x : BitVec a) (y : BitVec b) (lo n : Nat) (h : b ≤ lo) :
    (x ++ y).extractLsb' lo n = x.extractLsb' (lo - b) n := by
  apply BitVec.eq_of_getLsbD_eq
  intro i _
  have hi : ¬ lo + i < b := by omega
  simp only [BitVec.getLsbD_extractLsb', BitVec.getLsbD_append, if_neg hi, show lo + i - b = lo - b + i by omega]

theorem extract_append_low {a b : Nat} (x : BitVec a) (y : BitVec b) (lo n : Nat) (h : lo + n ≤ b) :
    (x ++ y).extractLsb' lo n = y.extractLsb' lo n := by
  apply BitVec.eq_of_getLsbD_eq
  intro i hn
  have hi : lo + i < b := by omega
  simp only [BitVec.getLsbD_extractLsb', BitVec.getLsbD_append, if_pos hi]

/-- A word built from operands and a code is the number of the bit vectors appended (R68). -/
theorem append_toNat {a : Nat} (x : BitVec a) (c : BitVec 4) : (x ++ c).toNat = 2 ^ 4 * x.toNat + c.toNat := by
  rw [BitVec.toNat_append, ← Nat.shiftLeft_add_eq_or_of_lt c.isLt, Nat.shiftLeft_eq, Nat.mul_comm]

/-- A field of the number of a bit vector is the slice of the bit vector. -/
theorem field_toNat {a : Nat} (x : BitVec a) (lo n : Nat) : field x.toNat lo n = x.extractLsb' lo n := rfl

/-- A length field holds a length of `lenW` bits (R71). -/
theorem lenField_lt (lenW cmd : Nat) (j : Fin 4) : lenField lenW cmd j < 2 ^ lenW :=
  Nat.mod_lt _ (Nat.two_pow_pos lenW)

end Sys2Proof

namespace Sys2Proof.Machine

theorem nextCount_lt (lenW count : Nat) : nextCount lenW count < 2 ^ lenW :=
  Nat.mod_lt _ (Nat.two_pow_pos lenW)

/-- A count of at least 1 that fits goes down by 1 (R124). -/
theorem prevCount_eq {lenW count : Nat} (h : 0 < count) (hl : count < 2 ^ lenW) :
    prevCount lenW count = count - 1 := by
  have : count + (2 ^ lenW - 1) = count - 1 + 2 ^ lenW := by omega
  rw [prevCount, this, Nat.add_mod_right, Nat.mod_eq_of_lt (by omega)]

/-- A position does not carry out of `POS_W` bits where it fits (R124). -/
theorem addPos_eq {lenW pos n : Nat} (h : pos + n < 2 ^ Config.posW lenW) :
    addPos lenW pos n = pos + n := Nat.mod_eq_of_lt h

theorem countField_lt (lenW n : Nat) : countField lenW n < 2 ^ lenW := by
  unfold countField
  split
  · assumption
  · exact Nat.mod_lt _ (Nat.two_pow_pos lenW)

/-- Every count of lanes fits a register of two bits or more (R23). -/
theorem countField_eq {lenW n : Nat} (h : n < 2 ^ lenW) : countField lenW n = n := if_pos h

/-- A lane is enabled exactly when its mask bit is 1. -/
@[simp] theorem mem_enabledLanes (mask : BitVec 4) (j : Fin 4) :
    j ∈ enabledLanes mask ↔ mask.getLsbD j.val = true := by
  simp [enabledLanes]

theorem popcount_le_four (mask : BitVec 4) : popcount mask ≤ 4 :=
  List.length_filter_le _ allLanes

/-- The three bits of `DEC_N` hold every count of lanes. -/
@[simp] theorem popcount_mod_eight (mask : BitVec 4) : popcount mask % 8 = popcount mask := by
  have := popcount_le_four mask
  omega

theorem popcount_toNat (mask : BitVec 4) : (BitVec.ofNat 3 (popcount mask)).toNat = popcount mask := by
  simp

/-- A column of a word has one symbol per enabled lane. -/
@[simp] theorem decColumn_length (mask : BitVec 4) (w : Quad ShareWord) (k : Fin 8) :
    (decColumn mask w k).length = popcount mask := by
  simp [decColumn, popcount]

/-- The three-lane rule declares no corruption (R113). -/
@[simp] theorem classify3_ne_corrupt (n : Nat) : classify3 n ≠ .corrupt := by
  unfold classify3
  split <;> simp

/-- The draws of a byte are in range exactly when each draw pair is in range for its bit. -/
theorem drawsInRange_iff (w : Weights) (d : Byte) (draws : Octet DrawPair) :
    drawsInRange w d draws = true ↔ ∀ k, drawInRange w (byteBit d k) (draws.get k) = true := by
  simp only [drawsInRange, List.all_eq_true]
  exact ⟨fun h k => h k (mem_allColumns k), fun h k _ => h k⟩

/-- A draw pair in range, in numbers (R64, R66). -/
theorem drawInRange_iff (w : Weights) (b : Bool) (dp : DrawPair) :
    drawInRange w b dp = true ↔ dp.p < 24 ∧ dp.e < if b then w.no else 6 := by
  simp [drawInRange]

/-- No column of a word is corrupt exactly when there is no lowest corrupt one. -/
theorem firstCorrupt_eq_none (n : BitVec 3) (mask : BitVec 4) (w : Quad ShareWord) :
    firstCorrupt n mask w = none ↔ ∀ k, wordVote n mask w k ≠ .corrupt := by
  simp only [firstCorrupt, List.find?_eq_none, beq_iff_eq]
  exact ⟨fun h k => h k (mem_allColumns k), fun h k _ => h k⟩

/-- The lowest corrupt column is corrupt. -/
theorem firstCorrupt_some {n : BitVec 3} {mask : BitVec 4} {w : Quad ShareWord} {k : Fin 8}
    (h : firstCorrupt n mask w = some k) : wordVote n mask w k = .corrupt := by
  simpa using List.find?_some h

/-- Waiting events are taken in order; the rest of the state is as it stands. -/
theorem nextEvent_cons {s : State} {ev : HostEvent} {rest : List HostEvent} (h : s.port = ev :: rest) :
    nextEvent s = some (ev, { s with port := rest }) := by
  simp [nextEvent, h]

theorem nextEvent_nil {s : State} (h : s.port = []) : nextEvent s = none := by
  simp [nextEvent, h]

/-- What a step can do: nothing waits and nothing changes; a command runs or is rejected; or an event of the host
takes effect. -/
theorem step_cases {s t : State} (h : step s = .next t) :
    (s.port = [] ∧ t = s)
    ∨ (∃ rest cmd i, s.port = .command cmd :: rest ∧ decode s.lenW cmd = .ok i ∧ exec i { s with port := rest } = .next t)
    ∨ (∃ rest cmd e, s.port = .command cmd :: rest ∧ decode s.lenW cmd = .error e ∧ t = reject { s with port := rest })
    ∨ (∃ rest, s.port = .rst :: rest ∧ t = applyReset { s with port := rest })
    ∨ (∃ rest, s.port = .emptyShares :: rest ∧ t = emptyShares { s with port := rest })
    ∨ (∃ rest, s.port = .emptyOut :: rest ∧ t = emptyOut { s with port := rest }) := by
  unfold step at h
  cases hp : s.port with
  | nil =>
    rw [nextEvent_nil hp] at h
    simp only [Host.Outcome.next.injEq] at h
    exact .inl ⟨rfl, h.symm⟩
  | cons ev rest =>
    rw [nextEvent_cons hp] at h
    cases ev with
    | command cmd =>
      cases hd : decode s.lenW cmd with
      | ok i =>
        simp only [hd] at h
        exact .inr (.inl ⟨rest, cmd, i, rfl, hd, h⟩)
      | error e =>
        simp only [hd, Host.Outcome.next.injEq] at h
        exact .inr (.inr (.inl ⟨rest, cmd, e, rfl, hd, h.symm⟩))
    | rst =>
      simp only [Host.Outcome.next.injEq] at h
      exact .inr (.inr (.inr (.inl ⟨rest, rfl, h.symm⟩)))
    | emptyShares =>
      simp only [Host.Outcome.next.injEq] at h
      exact .inr (.inr (.inr (.inr (.inl ⟨rest, rfl, h.symm⟩))))
    | emptyOut =>
      simp only [Host.Outcome.next.injEq] at h
      exact .inr (.inr (.inr (.inr (.inr ⟨rest, rfl, h.symm⟩))))

/-- What `ENC.BYTE` can do. -/
theorem execEncByte_cases {d : Byte} {draws : Octet DrawPair} {s t : State} (h : execEncByte d draws s = .next t) :
    (s.enc.state = .run ∧ drawsInRange s.weights d draws = true
      ∧ t = accept (pushShares (encWords s.weights d draws)
          { s with enc := { s.enc with count := nextCount s.lenW s.enc.count, dp := EncDatapath.zero } }))
    ∨ (¬ (s.enc.state = .run ∧ drawsInRange s.weights d draws = true) ∧ t = reject s) := by
  unfold execEncByte at h
  split at h <;> rename_i hc <;> simp only [Host.Outcome.next.injEq] at h
  · exact .inl ⟨hc.1, hc.2, h.symm⟩
  · exact .inr ⟨hc, h.symm⟩

/-- What `ENC.END` can do. -/
theorem execEncEnd_cases {s t : State} (h : execEncEnd s = .next t) :
    (s.enc.state = .run ∧ t = accept { s with enc := { s.enc with state := .done } })
    ∨ (s.enc.state ≠ .run ∧ t = reject s) := by
  unfold execEncEnd at h
  split at h <;> rename_i hc <;> simp only [Host.Outcome.next.injEq] at h
  · exact .inl ⟨hc, h.symm⟩
  · exact .inr ⟨hc, h.symm⟩

/-- What `DEC.START` can do. -/
theorem execDecStart_cases {mask : BitVec 4} {len : Quad Nat} {s t : State} (h : execDecStart mask len s = .next t) :
    (∃ e, startFault s.lenW mask len = some e ∧ t = raiseError e (latchMask mask s))
    ∨ (startFault s.lenW mask len = none ∧ t = openDecode (len.get (refLane mask)) (latchMask mask s)) := by
  unfold execDecStart at h
  split at h <;> rename_i hc <;> simp only [Host.Outcome.next.injEq] at h
  · exact .inl ⟨_, hc, h.symm⟩
  · exact .inr ⟨hc, h.symm⟩

/-- What `DEC.WORD` can do. -/
theorem execDecWord_cases {w : Quad ShareWord} {s t : State} (h : execDecWord w s = .next t) :
    (s.dec.state = .run ∧ ∃ k, firstCorrupt s.dec.n s.dec.mask w = some k
      ∧ t = raiseError (corruptedInput (addPos s.lenW s.dec.pos k.val) (same (decColumn s.dec.mask w k))) s)
    ∨ (s.dec.state = .run ∧ firstCorrupt s.dec.n s.dec.mask w = none
      ∧ t = advanceDecode (wordByte s.dec.n s.dec.mask w) s)
    ∨ (s.dec.state ≠ .run ∧ t = reject s) := by
  unfold execDecWord at h
  split at h
  · rename_i hr
    split at h <;> rename_i hc <;> simp only [Host.Outcome.next.injEq] at h
    · exact .inl ⟨hr, _, hc, h.symm⟩
    · exact .inr (.inl ⟨hr, hc, h.symm⟩)
  · rename_i hr
    simp only [Host.Outcome.next.injEq] at h
    exact .inr (.inr ⟨hr, h.symm⟩)

/-- What the checks of `DEC.START` can report (R156). -/
theorem startFault_cases (lenW : Nat) (mask : BitVec 4) (len : Quad Nat) :
    (popcount mask < 3 ∧ startFault lenW mask len = some (insufficientShares lenW (popcount mask)))
    ∨ (3 ≤ popcount mask ∧ ∃ j, differingLane mask len = some j
        ∧ startFault lenW mask len = some (unequalLengths (len.get (refLane mask)) (len.get j) j))
    ∨ (3 ≤ popcount mask ∧ differingLane mask len = none ∧ len.get (refLane mask) % 2 = 1
        ∧ startFault lenW mask len = some (oddLength (len.get (refLane mask)) (refLane mask)))
    ∨ (3 ≤ popcount mask ∧ differingLane mask len = none ∧ len.get (refLane mask) % 2 = 0
        ∧ startFault lenW mask len = none) := by
  unfold startFault
  by_cases hp : popcount mask < 3
  · exact .inl ⟨hp, if_pos hp⟩
  · rw [if_neg hp]
    have hp' : 3 ≤ popcount mask := by omega
    cases hd : differingLane mask len with
    | some j => exact .inr (.inl ⟨hp', j, rfl, rfl⟩)
    | none =>
      by_cases ho : len.get (refLane mask) % 2 = 1
      · exact .inr (.inr (.inl ⟨hp', rfl, ho, if_pos ho⟩))
      · exact .inr (.inr (.inr ⟨hp', rfl, by omega, if_neg ho⟩))

/-- The lowest differing lane is enabled and differs from the reference lane. -/
theorem differingLane_some {mask : BitVec 4} {len : Quad Nat} {j : Fin 4} (h : differingLane mask len = some j) :
    mask.getLsbD j.val = true ∧ len.get j ≠ len.get (refLane mask) := by
  refine ⟨?_, by simpa using List.find?_some h⟩
  simpa using List.mem_of_find?_eq_some h

/-- No lane differs exactly when every enabled lane has the reference lane's length. -/
theorem differingLane_eq_none (mask : BitVec 4) (len : Quad Nat) :
    differingLane mask len = none ↔ ∀ j : Fin 4, mask.getLsbD j.val = true → len.get j = len.get (refLane mask) := by
  simp [differingLane, List.find?_eq_none]

end Sys2Proof.Machine
end

