-- ==== Sys2Proof/Laws/PerInstr.lean ====
section
/-! SUPPORT. A fact about every instruction as syntax, one lemma per constructor: `cmd[3:0]` of its command word is the
code the opcode map gives it (spec/30_encoding.md R73). -/

namespace Sys2Proof.Laws.OpcodeField

/-- The low four bits of the encoded word are the operation's code (R73). -/
def Statement (i : Instr) : Prop := ∀ lenW : Nat, field (encode lenW i) 0 4 = opcode i

/-- The opcode stands below the operand bits (R68). -/
theorem of_sum (x : Nat) (c : BitVec 4) : field (2 ^ 4 * x + c.toNat) 0 4 = c := by
  apply BitVec.eq_of_toNat_eq
  have := c.isLt
  simp only [field, Nat.shiftRight_zero, BitVec.toNat_ofNat]
  omega

theorem encNop : Statement .encNop := fun _ => of_sum _ _
theorem encStart : Statement .encStart := fun _ => of_sum _ _
theorem encByte (d : Byte) (draws : Octet DrawPair) : Statement (.encByte d draws) := fun _ => of_sum _ _
theorem encEnd : Statement .encEnd := fun _ => of_sum _ _
theorem encAbort : Statement .encAbort := fun _ => of_sum _ _
theorem decNop : Statement .decNop := fun _ => of_sum _ _
theorem decStart (mask : BitVec 4) (len : Quad Nat) : Statement (.decStart mask len) := fun _ => of_sum _ _
theorem decWord (w : Quad ShareWord) : Statement (.decWord w) := fun _ => of_sum _ _
theorem decAbort : Statement .decAbort := fun _ => of_sum _ _

end Sys2Proof.Laws.OpcodeField
end

