-- ==== Sys2Proof/Tests/Slice0.lean ====
section
/-! SUPPORT. Tests of the model against the worked values of spec/95_test_vectors.md, the ill-formed terms that
WellFormed refuses, and a named witness for the hypotheses of every statement that has some. -/

namespace Sys2Proof.Tests

open Sys2Proof.Machine

/-! ### States and operands -/

/-- The draw pairs of vector V20. -/
def drawsV20 : Octet DrawPair := ⟨⟨0, 0⟩, ⟨4, 9⟩, ⟨3, 5⟩, ⟨5, 23⟩, ⟨1, 14⟩, ⟨2, 7⟩, ⟨4, 18⟩, ⟨11, 3⟩⟩

/-- The command word of vector V20, its draw pairs written out bit by bit from R70: `p`, `e` of bits 7 to 0, `d`, code. -/
def wordV20 : Nat :=
  (0b00011#5 ++ 0b1011#4 ++ 0b10010#5 ++ 0b0100#4 ++ 0b00111#5 ++ 0b0010#4 ++ 0b01110#5 ++ 0b0001#4
    ++ 0b10111#5 ++ 0b0101#4 ++ 0b00101#5 ++ 0b0011#4 ++ 0b01001#5 ++ 0b0100#4 ++ 0b00000#5 ++ 0b0000#4
    ++ 0b01000001#8 ++ 0b0010#4 : BitVec 84).toNat

/-- The share words of vector V20. -/
def wordsV20 : Quad ShareWord := ⟨0x178C, 0x2B06, 0x7A37, 0x46BD⟩

/-- An open encode invocation. -/
def encRun (count : Nat) : State := { State.reset with enc := { EncRegs.zero with state := .run, count := count } }

/-- An open decode invocation at position 0, as `DEC.START` leaves it. -/
def decRun (mask : BitVec 4) (n : BitVec 3) (rem : Nat) : State :=
  { State.reset with dec := { DecRegs.zero with state := .run, mask := mask, n := n, rem := rem } }

/-- An open decode invocation of a machine with `LEN_W` = 8, 31 words done and four to go. -/
def narrowDec : State :=
  { decRun 0b1111 4 4 with lenW := 8, dec := { (decRun 0b1111 4 4).dec with pos := 248 } }

/-- The state after a fault at position 13 (V141). -/
def decFault : State :=
  { State.reset with
    dec :=
      { DecRegs.zero with
        state := .fault, mask := 0b1111, n := 4, rem := 4, pos := 8, err := ⟨.corruptedInput, 0, 13, 1, 0, 0, 0⟩ } }

/-- A state in which one command waits at the port. -/
def atPort (cmd : Nat) (s : State) : State := { s with port := [.command cmd] }

/-- The registers of the decoder after a command, or those of reset where it gives no next state. -/
def decAfter (o : Host.Outcome State Fault Refusal) : DecRegs :=
  match o with
  | .next t => t.dec
  | .fault _ => DecRegs.zero
  | .refused _ => DecRegs.zero

/-- The state a command ends in, or that of reset where it gives none. -/
def after (o : Host.Outcome State Fault Refusal) : State :=
  match o with
  | .next t => t
  | .fault _ => State.reset
  | .refused _ => State.reset

/-! ### Well-formedness: one ill-formed term for each check -/

theorem test_wellFormed_accepts_V20 : (Instr.encByte 0x41 drawsV20).wellFormed 64 = true := by decide
theorem test_wellFormed_refuses_wide_entry_draw :
    (Instr.encByte 0x41 { drawsV20 with k6 := ⟨16, 18⟩ }).wellFormed 64 = false := by decide
theorem test_wellFormed_refuses_wide_permutation_draw :
    (Instr.encByte 0x41 { drawsV20 with k0 := ⟨0, 32⟩ }).wellFormed 64 = false := by decide

theorem test_wellFormed_refuses_wide_length :
    (Instr.decStart 0b0111 ⟨2, 2, 256, 0⟩).wellFormed 8 = false
      ∧ (Instr.decStart 0b0111 ⟨2, 2, 255, 0⟩).wellFormed 8 = true := by
  decide

/-! ### Decoding: each operation's word from R69 to R73 -/

theorem test_decode_encNop : decode 64 0x0 = .ok .encNop := by decide
theorem test_decode_encStart : decode 64 0x1 = .ok .encStart := by decide
theorem test_decode_encByte_bits : decode 64 wordV20 = .ok (.encByte 0x41 drawsV20) := by decide
theorem test_word_V20 : wordV20 = 0x1DC90E4E1BA94D2800412 := by decide
theorem test_decode_encEnd : decode 64 0x3 = .ok .encEnd := by decide
theorem test_decode_encAbort : decode 64 0x4 = .ok .encAbort := by decide
theorem test_decode_decNop : decode 64 0x8 = .ok .decNop := by decide
theorem test_decode_decStart_bits :
    decode 64 (7#64 ++ 6#64 ++ 5#64 ++ 4#64 ++ 0b1010#4 ++ 0b1001#4).toNat = .ok (.decStart 0b1010 ⟨4, 5, 6, 7⟩) := by decide
/-- R71 with `LEN_W` = 20: `len[j]` at `[8+20(j+1)-1 : 8+20j]`. -/
theorem test_decode_decStart_narrow :
    decode 20 (7#20 ++ 6#20 ++ 5#20 ++ 0xFFFFF#20 ++ 0b1010#4 ++ 0b1001#4).toNat
        = .ok (.decStart 0b1010 ⟨0xFFFFF, 5, 6, 7⟩)
      ∧ encode 20 (.decStart 0b1010 ⟨0xFFFFF, 5, 6, 7⟩)
        = (7#20 ++ 6#20 ++ 5#20 ++ 0xFFFFF#20 ++ 0b1010#4 ++ 0b1001#4).toNat := by
  decide
theorem test_decode_decWord_bits :
    decode 64 (0x46BD#16 ++ 0x7A37#16 ++ 0x2B06#16 ++ 0x178C#16 ++ 0b1010#4).toNat = .ok (.decWord wordsV20) := by
  decide
theorem test_decode_decAbort : decode 64 0xC = .ok .decAbort := by decide
theorem test_decode_reserved :
    [0x5, 0x6, 0x7, 0xB, 0xD, 0xE, 0xF].all (fun c => decodeTableWord 264 c == none) = true := by decide
theorem test_decode_ignores_high_bits : decode 64 (2 ^ 263 + 0xC) = .ok .decAbort := by decide
theorem test_encode_V20 : encode 64 (.encByte 0x41 drawsV20) = 0x1DC90E4E1BA94D2800412 := by decide
theorem test_encode_V100 : encode 64 (.decWord wordsV20) = 0x46BD7A372B06178CA := by decide
theorem test_encode_V73 :
    encode 64 (.decStart 0b1011 ⟨10, 10, 0, 10⟩) = 0xA0000000000000000000000000000000A000000000000000AB9 := by decide

/-! ### The encoder (R94 to R97) -/

/-- V20 and V137: the bytes pushed to the four shares, and the count that wraps. -/
theorem test_encByte_V20_V137 :
    (after (exec (.encByte 0x41 drawsV20) (encRun 0xFFFFFFFFFFFFFFFF))).sh
        = ⟨[0x17, 0x8C], [0x2B, 0x06], [0x7A, 0x37], [0x46, 0xBD]⟩
      ∧ (after (exec (.encByte 0x41 drawsV20) (encRun 0xFFFFFFFFFFFFFFFF))).enc.count = 0 := by
  decide

/-- V26 to V29: a draw just out of range, and the command of V20 outside `RUN`. -/
theorem test_encByte_rejects_V26_to_V29 :
    [{ drawsV20 with k6 := ⟨6, 18⟩ }, { drawsV20 with k3 := ⟨5, 24⟩ }, { drawsV20 with k7 := ⟨12, 3⟩ }].all
        (fun x => after (exec (.encByte 0x41 x) (encRun 0)) == { encRun 0 with rej := true }) = true
      ∧ after (exec (.encByte 0x41 drawsV20) State.reset) = { State.reset with rej := true } := by
  decide

/-- V132. -/
theorem test_encStart_in_run : (after (exec .encStart (encRun 7))).enc = { EncRegs.zero with state := .run } := by decide

/-- V133. -/
theorem test_encEnd_in_run : (after (exec .encEnd (encRun 7))).enc = { EncRegs.zero with state := .done, count := 7 } := by
  decide

/-- V134. -/
theorem test_encEnd_in_idle : after (exec .encEnd State.reset) = { State.reset with rej := true } := by decide

/-- V136, from `RUN`. -/
theorem test_encAbort : (after (exec .encAbort (encRun 7))).enc = EncRegs.zero := by decide

/-! ### The decoder (R116 to R118) -/

/-- V70, V75: three lanes, one word and none. -/
theorem test_decStart_V70_V75 :
    decAfter (exec (.decStart 0b0111 ⟨2, 2, 2, 0⟩) decFault)
        = { DecRegs.zero with state := .run, mask := 0b0111, n := 3, rem := 1 }
      ∧ decAfter (exec (.decStart 0b0111 ⟨0, 0, 0, 0⟩) State.reset)
        = { DecRegs.zero with state := .done, mask := 0b0111, n := 3 } := by
  decide

/-- V80, V82, V84, V85, V87, V88: what each precondition fault records. -/
theorem test_decStart_faults :
    [((0b1010 : BitVec 4), (⟨0, 3, 0, 5⟩ : Quad Nat)), (0b1111, ⟨4, 4, 6, 4⟩), (0b0111, ⟨3, 3, 5, 0⟩),
        (0b1110, ⟨0, 8, 8, 2⟩), (0b1110, ⟨0, 3, 3, 3⟩), (0b1111, ⟨1, 1, 1, 1⟩)].map
        (fun x => (decAfter (exec (.decStart x.1 x.2) State.reset)).err)
      = [⟨.insufficientShares, 0, 0, 0, 3, 2, 0⟩, ⟨.lengthMismatch, 0, 0, 0, 4, 6, 2⟩,
        ⟨.lengthMismatch, 0, 0, 0, 3, 5, 2⟩, ⟨.lengthMismatch, 0, 0, 0, 8, 2, 3⟩,
        ⟨.lengthMismatch, 1, 0, 0, 2, 3, 1⟩, ⟨.lengthMismatch, 1, 0, 0, 0, 1, 0⟩] := by
  decide

/-- V100, V105: the last word and a word before it. -/
theorem test_decWord_V100_V105 :
    (after (exec (.decWord wordsV20) (decRun 0b1111 4 1))).out = [0x41]
      ∧ decAfter (exec (.decWord wordsV20) (decRun 0b1111 4 1))
        = { DecRegs.zero with state := .done, mask := 0b1111, n := 4, pos := 8 }
      ∧ decAfter (exec (.decWord ⟨0x884E, 0x0A8F, 0x584C, 0xDA8D⟩) (decRun 0b1111 4 2))
        = { DecRegs.zero with state := .run, mask := 0b1111, n := 4, pos := 8, rem := 1 } := by
  decide

/-- V107, V108, V109: the lowest corrupt position and its count; nothing is pushed and the counters stay. V125: a word
after a fault is rejected. -/
theorem test_decWord_V107_V108_V109_V125 :
    after (exec (.decWord wordsV20) decFault) = { decFault with rej := true } ∧ [((1 : Nat), (⟨0x178C, 0x2B06, 0x7A37, 0x06BD⟩ : Quad ShareWord)), (1, ⟨0x178C, 0x2B26, 0x7A37, 0x46BD⟩),
        (2, ⟨0x138C, 0x2B06, 0x7A33, 0x46BD⟩)].map
        (fun x => decAfter (exec (.decWord x.2) (decRun 0b1111 4 x.1)))
      = [(1, 0, 3), (1, 5, 1), (2, 2, 1)].map (fun x =>
          { DecRegs.zero with
            state := .fault, mask := 0b1111, n := 4, rem := x.1, err := ⟨.corruptedInput, 0, x.2.1, x.2.2, 0, 0, 0⟩ }) := by
  decide

/-- V141. -/
theorem test_decAbort : after (exec .decAbort decFault) = State.reset := by decide

/-- V130, V139. -/
theorem test_nops : after (exec .encNop decFault) = decFault ∧ after (exec .decNop (encRun 3)) = encRun 3 := by decide

/-! ### Steps -/

/-- The word that stands for the fetch runs as the very next step. -/
theorem test_withFetchWord : after (step (State.reset.withFetchWord 264 1)) = encRun 0 := by decide

/-- V138, V140: a reserved code. -/
theorem test_step_reserved : after (step (atPort 0xB decFault)) = { decFault with rej := true } := by decide

/-- V145. -/
theorem test_step_rst : after (step { decFault with port := [.rst] }) = State.reset := by decide

/-! ### Code numbers and datapath functions -/

/-- R76, R77. -/
theorem test_codes :
    [UnitState.idle, .run, .done, .fault].map UnitState.code = [0, 1, 2, 3]
      ∧ [ErrorCode.none, .sourceNotFound, .sinkCollision, .insufficientShares, .lengthMismatch, .corruptedInput].map
        ErrorCode.code = [0, 1, 2, 3, 4, 5] := by
  decide

/-- The widths and the draw range that R5 gives for the defaults. -/
theorem test_widths :
    Config.posW State.reset.lenW = 66 ∧ Config.cmdW State.reset.lenW = 264 ∧ State.reset.weights.no = 12 := by decide

/-- R12, R17, R18 with `LEN_W` = 8: `ENC_COUNT` wraps at 256, and `DEC_POS` counts on past 256. -/
theorem test_narrow_counters :
    (after (exec (.encByte 0x41 drawsV20) { encRun 255 with lenW := 8 })).enc.count = 0
      ∧ decAfter (exec (.decWord wordsV20) narrowDec) = { narrowDec.dec with pos := 256, rem := 3 } := by
  decide

/-- R64 with the weights 2 and 3: the draw 4 is the third identical entry and 11 is out of range. -/
theorem test_other_weights :
    mapBit ⟨2, 3⟩ true 4 = ⟨2, 2, 2, 2⟩ ∧ mapBit ⟨2, 3⟩ true 8 = ⟨0, 1, 2, 3⟩
      ∧ drawInRange ⟨2, 3⟩ true ⟨11, 0⟩ = false := by
  decide

/-- R23 with `LEN_W` = 2, the narrowest register that holds the counts: mask 0b0011 reports 2 of 3. -/
theorem test_narrow_count_fields :
    (decAfter (exec (.decStart 0b0011 ⟨0, 0, 0, 0⟩) (State.resetFor 2))).err = ⟨.insufficientShares, 0, 0, 0, 3, 2, 0⟩ := by
  decide

/-- R110's example. -/
theorem test_unpackSym : unpackSym 0x178C 3 = 3 := by decide

/-- R111's examples. -/
theorem test_same :
    [[0, 0, 1, 1], [3, 3, 3, 3], [0, 1, 2, 3], [2, 0, 1, 1], [0, 3, 3, 3], [0, 0, 1]].map same = [2, 6, 0, 1, 3, 1] := by
  decide

/-- R91's example and R90's with the default weights. -/
theorem test_permute_mapBit :
    permute ⟨1, 1, 2, 2⟩ 5 = ⟨1, 2, 2, 1⟩ ∧ mapBit Config.defaultWeights false 3 = ⟨1, 1, 2, 2⟩
      ∧ mapBit Config.defaultWeights true 2 = ⟨2, 2, 2, 2⟩ ∧ mapBit Config.defaultWeights true 11 = ⟨0, 1, 2, 3⟩ := by
  decide

/-- V21: a byte with both families and every all-identical entry but symbol 1. -/
theorem test_encWords_V21 :
    encWords Config.defaultWeights 0xA7 ⟨⟨5, 12⟩, ⟨0, 0⟩, ⟨2, 1⟩, ⟨1, 2⟩, ⟨3, 10⟩, ⟨0, 20⟩, ⟨3, 22⟩, ⟨7, 16⟩⟩
      = ⟨0x884E, 0x0A8F, 0x584C, 0xDA8D⟩ := by
  decide

/-- V101, V112, V113: three lanes decode every word to a byte, right or wrong. -/
theorem test_wordByte_three_lanes :
    wordByte 3 0b0111 wordsV20 = 0x41 ∧ wordByte 3 0b1110 ⟨0, 0x2B06, 0x7A37, 0x06BD⟩ = 0x41
      ∧ wordByte 3 0b1011 ⟨0x178C, 0x2B06, 0, 0x06BD⟩ = 0xC1 := by
  decide

/-- S6: the three-lane votes of the damaged column (2, 0, 1, 1). -/
theorem test_three_lane_votes :
    [[0, 1, 1], [2, 0, 1], [2, 1, 1]].map (decPos 3) = [.bit false, .bit true, .bit false] := by decide

/-- The serial datapath on V20's byte and on the damaged word of V108. -/
theorem test_serial :
    encSerial Config.defaultWeights 0x41 drawsV20 = ⟨0, 0, wordsV20⟩
      ∧ decSerial 4 0b1111 ⟨0x178C, 0x2B26, 0x7A37, 0x46BD⟩ = .error (5, 1) := by
  decide

/-! ### Witnesses: operands and states that meet the hypotheses of the statements, at the bounds of their ranges -/

/-- The widest draws, and the longest lengths with the narrowest and the default `LEN_W`. -/
theorem witness_DecodeOfEncode :
    (Instr.encByte 0xFF (Octet.ofFn fun _ => ⟨15, 31⟩)).wellFormed 19 = true
      ∧ (Instr.decStart 0xF ⟨1, 1, 1, 1⟩).wellFormed 1 = true
      ∧ (Instr.decStart 0xF ⟨0, 1, 2, 0xFFFFFFFFFFFFFFFF⟩).wellFormed 64 = true := by
  decide

theorem witness_EncodeOfDecode : decode 64 wordV20 = .ok (.encByte 0x41 drawsV20) := by decide

theorem witness_IgnoredBitsAreNotRead :
    decode 64 0xC = .ok .decAbort
      ∧ ∀ n < usedBits 64 .decAbort, (2 ^ 263 + 0xC).testBit n = (0xC).testBit n := by
  decide

theorem witness_OpcodeMap : decode 64 0x8 = .ok .decNop ∧ (field 0xF 0 4).toNat = 0xF := by decide

theorem witness_StepRunsDecodedInstruction :
    (atPort 0x1 State.reset).port = [.command 0x1] ∧ decode 64 0x1 = .ok .encStart := by decide

theorem witness_FormatFields :
    field 0xC 0 4 = opcode .decAbort ∧ field wordV20 0 4 = 0x2 ∧ field 0x279 0 4 = 0x9 ∧ field 0x7A372B06178CA 0 4 = 0xA := by
  decide

/-- The codes of the operations whose statements begin with how they are encoded. -/
theorem witness_codes_of_operations :
    field 0x0 0 4 = 0x0 ∧ field 0x8 0 4 = 0x8 ∧ field 0x1 0 4 = 0x1 ∧ field 0x3 0 4 = 0x3 ∧ field 0x4 0 4 = 0x4
      ∧ field 0xC 0 4 = 0xC := by
  decide

/-- Also for the second clause of `RejectedExactlyAsListed`. -/
theorem witness_ReservedCodesAreRejected :
    (atPort 0x5 decFault).port = [.command 0x5] ∧ (field 0x5 0 4).toNat = 0x5 ∧ (field 0xF 0 4).toNat = 0xF
      ∧ decode 64 0x5 = .error (.reservedCode 0x5) := by
  decide

theorem witness_ResetInputClearsBothUnits : ({ decFault with port := [.rst] } : State).port = [.rst] := rfl

theorem witness_OtherEventsHoldRegisters :
    decFault.port = [] ∧ ({ decFault with port := [.emptyShares] } : State).port = [.emptyShares]
      ∧ ({ decFault with port := [.emptyOut] } : State).port = [.emptyOut] := ⟨rfl, rfl, rfl⟩

theorem witness_EncByteEncodes :
    (encRun 0).enc.state = .run
      ∧ ∀ k : Fin 8, ¬ drawOutOfRange (encRun 0).weights ((0x41 : Byte).getLsbD (7 - k.val)) (drawsV20.get k) := by
  decide

/-- The second clause: a state outside `RUN`, and each of the three bounds of a draw with its neighbour in range. -/
theorem witness_EncByteEncodes_rejected :
    State.reset.enc.state ≠ .run ∧ drawOutOfRange Config.defaultWeights false ⟨0, 24⟩
      ∧ drawOutOfRange Config.defaultWeights false ⟨6, 23⟩ ∧ drawOutOfRange Config.defaultWeights true ⟨12, 23⟩
      ∧ ¬ drawOutOfRange Config.defaultWeights false ⟨5, 23⟩ ∧ ¬ drawOutOfRange Config.defaultWeights true ⟨11, 23⟩ := by
  decide

theorem witness_EncEndCloses : (encRun 7).enc.state = .run ∧ State.reset.enc.state ≠ .run := by decide

/-- Two lanes and none; the widths at which the counts fit their registers and the one at which they may not. -/
theorem witness_DecStartInsufficientShares :
    3 < 2 ^ 2 ∧ 2 < 2 ^ 2 ∧ 1 < 2 ^ 1 ∧ ¬ 2 < 2 ^ 1 ∧
    (∀ mask ∈ [(0b0000 : BitVec 4), 0b1010],
      (mask.getLsbD 0).toNat + (mask.getLsbD 1).toNat + (mask.getLsbD 2).toNat + (mask.getLsbD 3).toNat < 3) := by
  decide

/-- V85: mask 0b1110, lengths 8, 8, 2; lane 1 is the reference and lane 3 differs. -/
theorem witness_DecStartUnequalLengths :
    3 ≤ ((0b1110 : BitVec 4).getLsbD 0).toNat + ((0b1110 : BitVec 4).getLsbD 1).toNat
        + ((0b1110 : BitVec 4).getLsbD 2).toNat + ((0b1110 : BitVec 4).getLsbD 3).toNat
      ∧ (0b1110 : BitVec 4).getLsbD (1 : Fin 4).val = true
      ∧ (∀ i < (1 : Fin 4), (0b1110 : BitVec 4).getLsbD i.val = false)
      ∧ (0b1110 : BitVec 4).getLsbD (3 : Fin 4).val = true
      ∧ (⟨0, 8, 8, 2⟩ : Quad Nat).get 3 ≠ (⟨0, 8, 8, 2⟩ : Quad Nat).get 1
      ∧ (∀ i < (3 : Fin 4), (0b1110 : BitVec 4).getLsbD i.val = true →
          (⟨0, 8, 8, 2⟩ : Quad Nat).get i = (⟨0, 8, 8, 2⟩ : Quad Nat).get 1) := by
  decide

/-- V87: mask 0b1110, lengths 3, 3, 3. -/
theorem witness_DecStartOddLength :
    (0b1110 : BitVec 4).getLsbD (1 : Fin 4).val = true
      ∧ (∀ i < (1 : Fin 4), (0b1110 : BitVec 4).getLsbD i.val = false)
      ∧ (∀ i : Fin 4, (0b1110 : BitVec 4).getLsbD i.val = true → (⟨0, 3, 3, 3⟩ : Quad Nat).get i = 3)
      ∧ 3 % 2 = 1 := by
  decide

/-- The empty stream and the longest one. -/
theorem witness_DecStartOpens :
    0 % 2 = 0 ∧ 0xFFFFFFFFFFFFFFFE % 2 = 0
      ∧ (∀ i : Fin 4, (0b1111 : BitVec 4).getLsbD i.val = true → (⟨0, 0, 0, 0⟩ : Quad Nat).get i = 0)
      ∧ (∀ i : Fin 4, (0b0111 : BitVec 4).getLsbD i.val = true →
          (⟨0xFFFFFFFFFFFFFFFE, 0xFFFFFFFFFFFFFFFE, 0xFFFFFFFFFFFFFFFE, 0⟩ : Quad Nat).get i = 0xFFFFFFFFFFFFFFFE) := by
  refine ⟨by decide, by decide, by decide, fun i h => ?_⟩
  fin_cases i <;> first | rfl | simp at h

theorem witness_DecStartIgnoresDisabledLengths :
    ∀ j : Fin 4, (0b0111 : BitVec 4).getLsbD j.val = true →
      (⟨2, 2, 2, 99⟩ : Quad Nat).get j = (⟨2, 2, 2, 0⟩ : Quad Nat).get j := by
  decide

/-- V100 with four lanes and V101 with three, at the last word and at the longest stream. Also for the premises of
`DecWordRaisesCorruptedInput`. -/
theorem witness_DecWordPushesByte :
    (decRun 0b1111 4 1).dec.state = .run ∧ 0 < (decRun 0b1111 4 1).dec.rem
      ∧ (decRun 0b1111 4 1).dec.pos + 8 * (decRun 0b1111 4 1).dec.rem < 2 ^ ((decRun 0b1111 4 1).lenW + 2)
      ∧ 0 + 8 * 0x7FFFFFFFFFFFFFFF < 2 ^ (State.reset.lenW + 2)
      ∧ (∀ k : Fin 8, decPos 4 (decColumn 0b1111 wordsV20 k) = .bit ((0x41 : Byte).getLsbD (7 - k.val)))
      ∧ (∀ k : Fin 8, decPos 3 (decColumn 0b0111 wordsV20 k) = .bit ((0x41 : Byte).getLsbD (7 - k.val))) := by
  decide

/-- V107 at the first column with count 3, and a word whose last column alone is corrupt, with count 1. -/
theorem witness_DecWordRaisesCorruptedInput :
    same (decColumn 0b1111 ⟨0x178C, 0x2B06, 0x7A37, 0x06BD⟩ 0) = 3
      ∧ same (decColumn 0b1111 ⟨0x0000, 0x0000, 0x0001, 0x0002⟩ 7) = 1
      ∧ ∀ i < (7 : Fin 8), same (decColumn 0b1111 ⟨0x0000, 0x0000, 0x0001, 0x0002⟩ i) = 6 := by
  decide

theorem witness_ThreeLaneWordsNeverFault :
    (decRun 0b1011 3 1).dec.state = .run ∧ (decRun 0b1011 3 1).dec.n = 3 ∧ popcount (decRun 0b1011 3 1).dec.mask = 3
      ∧ 0 < (decRun 0b1011 3 1).dec.rem
      ∧ (decRun 0b1011 3 1).dec.pos + 8 * (decRun 0b1011 3 1).dec.rem < 2 ^ ((decRun 0b1011 3 1).lenW + 2) := by
  decide

theorem witness_DecWordIgnoresDisabledLanes :
    ∀ j : Fin 4, (decRun 0b0111 3 1).dec.mask.getLsbD j.val = true →
      wordsV20.get j = { wordsV20 with l3 := 0 }.get j := by
  decide

/-- A fault of each of the two commands that raise. -/
theorem witness_FaultEntryEffects :
    (∃ t, exec (.decStart 0b0011 ⟨2, 2, 0, 0⟩) State.reset = .next t ∧ t.dec.state = .fault ∧ t.rej = false)
      ∧ (∃ t, exec (.decWord ⟨0x178C, 0x2B06, 0x7A37, 0x06BD⟩) (decRun 0b1111 4 1) = .next t
        ∧ t.dec.state = .fault ∧ t.rej = false) :=
  ⟨⟨_, rfl, by decide, by decide⟩, ⟨_, rfl, by decide, by decide⟩⟩

/-- The bounds of the OPEN parameters: the least of each, and weights whose sum is the greatest. -/
theorem witness_InvariantAtReset :
    1 ≤ 1 ∧ 1 ≤ Config.defaultLenW ∧ (⟨1, 1⟩ : Weights).admissible ∧ (⟨3, 4⟩ : Weights).admissible
      ∧ ¬ (⟨3, 5⟩ : Weights).admissible := by
  decide

/-- The machine of the host's interface is the one with the defaults; another has its own parameters after reset. -/
theorem witness_ParametersAreFixed :
    (∃ t, step (State.resetFor 8 ⟨2, 3⟩) = .next t) ∧ (State.resetFor 8 ⟨2, 3⟩).lenW ≠ State.reset.lenW := ⟨⟨_, rfl⟩, by decide⟩

/-- The invariant holds in states of each kind, and a step is taken from them. -/
theorem witness_StepKeepsInvariant :
    (encRun 5).Inv ∧ decFault.Inv ∧ (decRun 0b1101 3 2).Inv ∧ narrowDec.Inv ∧ ∃ t, step (atPort 0xA (decRun 0b1101 3 2)) = .next t :=
  ⟨by decide, by decide, by decide, by decide, ⟨_, rfl⟩⟩

theorem witness_FaultIsSticky :
    decFault.dec.state = .fault ∧ ∃ t, step (atPort 0xA decFault) = .next t := ⟨by decide, ⟨_, rfl⟩⟩

theorem witness_EncoderCannotFault :
    (encRun 0).enc.state ≠ .fault ∧ isEnc .encEnd = true ∧ ∃ t, exec .encEnd (encRun 0) = .next t :=
  ⟨by decide, by decide, ⟨_, rfl⟩⟩

/-- Also for `StreamsOnlyGrow`: the command that changes the most. -/
theorem witness_EncoderCommandFrame :
    isEnc (.encByte 0x41 drawsV20) = true ∧ isEnc .encNop = true ∧ isEnc .encEnd = true
      ∧ ∃ t, exec (.encByte 0x41 drawsV20) (encRun 0) = .next t := ⟨by decide, by decide, by decide, ⟨_, rfl⟩⟩

theorem witness_DecoderCommandFrame :
    isEnc (.decWord wordsV20) = false ∧ isEnc .decNop = false
      ∧ ∃ t, exec (.decWord wordsV20) (decRun 0b1111 4 1) = .next t := ⟨by decide, by decide, ⟨_, rfl⟩⟩

/-- Two states that agree on one unit and differ on the other. -/
theorem witness_UnitsDoNotSeeEachOther :
    (encRun 0).lenW = decFault.lenW ∧ isEnc .encEnd = true ∧ (encRun 0).enc = { decFault with enc := (encRun 0).enc }.enc
      ∧ (encRun 0).dec ≠ { decFault with enc := (encRun 0).enc }.dec
      ∧ isEnc .decAbort = false ∧ decFault.dec = { encRun 0 with dec := decFault.dec }.dec
      ∧ (∃ t, exec .encEnd (encRun 0) = .next t) ∧ ∃ t, exec .decAbort decFault = .next t :=
  ⟨rfl, by decide, rfl, by decide, by decide, rfl, ⟨_, rfl⟩, ⟨_, rfl⟩⟩

theorem witness_UnitsCommute : isEnc .encStart = true ∧ isEnc .decAbort = false := by decide

/-- `DEC.START` that opens, and a word that does not fault from a state of the invariant. -/
theorem witness_PositionAndRemainderBalance :
    (∃ t, exec (.decStart 0b0111 ⟨2, 2, 2, 0⟩) State.reset = .next t ∧ t.dec.state ≠ .fault)
      ∧ (decRun 0b1111 4 1).Inv
      ∧ ∃ t, exec (.decWord wordsV20) (decRun 0b1111 4 1) = .next t ∧ t.rej = false ∧ t.dec.state ≠ .fault :=
  ⟨⟨_, rfl, by decide⟩, by decide, ⟨_, rfl, by decide, by decide⟩⟩

/-- The bounds of the table indexes in `CatalogEntries`, `DrawsGiveEntriesTheirWeight`, `PermTableIsClosedForm` and
`PermuteKeepsTheSymbols`. -/
theorem witness_table_indexes : 5 < zcatRom.length ∧ 4 < ocatRom.length ∧ 23 < permRom.length := by decide

theorem witness_AchievableCounts : ([0, 1, 2, 3] : List Symbol).length = 4 ∧ ([0, 1, 1] : List Symbol).length = 3 := by
  decide

theorem witness_SameCountsEqualPairs : ([2, 0, 1, 1] : List Symbol).Perm [1, 0, 2, 1] := by decide

/-- The three lanes of mask 0b0111 moved up by one, and a word that completes. -/
theorem witness_LanesAreAnonymous :
    (∀ j : Fin 4, (0b1110 : BitVec 4).getLsbD (Equiv.addRight (1 : Fin 4) j).val = (0b0111 : BitVec 4).getLsbD j.val)
      ∧ (∀ j : Fin 4, (⟨0, 0x178C, 0x2B06, 0x7A37⟩ : Quad ShareWord).get (Equiv.addRight (1 : Fin 4) j)
          = (⟨0x178C, 0x2B06, 0x7A37, 0⟩ : Quad ShareWord).get j)
      ∧ ∃ t, exec (.decWord ⟨0x178C, 0x2B06, 0x7A37, 0⟩) (decRun 0b0111 3 1) = .next t :=
  ⟨by decide, by decide, ⟨_, rfl⟩⟩

/-- The highest draws in range for each bit, with three lanes and with four. Also for `SingleSymbolChangeIsDetected`. -/
theorem witness_VoteRecoversTheBit :
    ¬ drawOutOfRange Config.defaultWeights false ⟨5, 23⟩ ∧ ¬ drawOutOfRange Config.defaultWeights true ⟨11, 23⟩
      ∧ 3 ≤ popcount 0b1011 ∧ 3 ≤ popcount 0b1111
      ∧ (1 : Symbol) ≠ (encBit Config.defaultWeights false ⟨5, 23⟩).get 0 := by
  decide

theorem witness_TwoSharesHideTheBitExactlyAtEightToOne :
    (0 : Fin 4) ≠ 3 ∧ Config.defaultWeights.wDist = 8 * Config.defaultWeights.wIdent := by decide

theorem witness_EncodeWholeStream :
    ∀ x ∈ [((0x41 : Byte), drawsV20)], ∀ k : Fin 8,
      ¬ drawOutOfRange State.reset.weights (x.1.getLsbD (7 - k.val)) (x.2.get k) := by
  decide

/-- Lanes without a corrupt column, and lanes whose lowest corrupt column is the first (V107). -/
theorem witness_DecodeWholeStream :
    3 ≤ popcount 0b1111
      ∧ (∀ j : Fin 4, ((⟨[0x17, 0x8C], [0x2B, 0x06], [0x7A, 0x37], [0x46, 0xBD]⟩ : Quad (List Byte)).get j).length = 2)
      ∧ (∀ p < 8,
          decPos 4 (columnAt 0b1111 ⟨[0x17, 0x8C], [0x2B, 0x06], [0x7A, 0x37], [0x46, 0xBD]⟩ p) ≠ .corrupt)
      ∧ decPos 4 (columnAt 0b1111 ⟨[0x17, 0x8C], [0x2B, 0x06], [0x7A, 0x37], [0x06, 0xBD]⟩ 0) = .corrupt := by
  decide

/-- A source of one byte, its shares on the lanes in reverse order; the draws are those of `witness_EncodeWholeStream`. -/
theorem witness_RoundTripOfEverySource :
    3 ≤ popcount 0b1110 ∧ Function.Injective (fun j : Fin 4 => 3 - j)
      ∧ 2 * [((0x41 : Byte), drawsV20)].length < 2 ^ State.reset.lenW := by
  decide

end Sys2Proof.Tests
end

/-! ### The two units side by side

A command acts on one unit: what it leaves of that unit's registers, that unit's streams and `rej` is a function of the
registers, streams and parameters the unit can see, and it keeps the rest of the state. `exec_enc_of_agree` and
`exec_dec_of_agree` say so once for each unit; the frames, the noninterference of the units and their commutation
follow from them. -/

namespace Sys2Proof.Machine

/-- `cmd[3]` is 0 for the five operations of the encoder (R68, R73). -/
theorem isEnc_eq_true_iff (i : Instr) :
    isEnc i = true ↔
      i = .encNop ∨ i = .encStart ∨ (∃ d draws, i = .encByte d draws) ∨ i = .encEnd ∨ i = .encAbort := by
  cases i <;> simp [isEnc, opcode]

/-- `cmd[3]` is 1 for the four operations of the decoder (R68, R73). -/
theorem isEnc_eq_false_iff (i : Instr) :
    isEnc i = false ↔ i = .decNop ∨ (∃ mask len, i = .decStart mask len) ∨ (∃ w, i = .decWord w) ∨ i = .decAbort := by
  cases i <;> simp [isEnc, opcode]

/-- Every command in every state has a next state (R141, R142). -/
theorem exec_total (i : Instr) (s : State) : ∃ t, exec i s = .next t := by
  cases i with
  | encNop | encStart | encAbort | decNop | decAbort => exact ⟨_, rfl⟩
  | encByte d draws => simp only [exec, execEncByte]; split <;> exact ⟨_, rfl⟩
  | encEnd => simp only [exec, execEncEnd]; split <;> exact ⟨_, rfl⟩
  | decStart mask len => simp only [exec, execDecStart]; split <;> exact ⟨_, rfl⟩
  | decWord w =>
    simp only [exec, execDecWord]
    split
    · split <;> exact ⟨_, rfl⟩
    · exact ⟨_, rfl⟩

/-- The outcome of a command is unique. -/
theorem exec_next_unique {i : Instr} {s t u : State} (ht : exec i s = .next t) (hu : exec i s = .next u) : t = u :=
  Host.Outcome.next.inj (ht.symm.trans hu)

/-- Two states agree on all that the encoder can see: its registers, the shares, the weights and `LEN_W`. -/
structure EncAgree (s s' : State) : Prop where
  enc : s'.enc = s.enc
  sh : s'.sh = s.sh
  weights : s'.weights = s.weights
  lenW : s'.lenW = s.lenW

/-- Two states agree on all that the decoder can see: its registers, the output and `LEN_W`. -/
structure DecAgree (s s' : State) : Prop where
  dec : s'.dec = s.dec
  out : s'.out = s.out
  lenW : s'.lenW = s.lenW

/-- An encoder command does the same to the encoder, the shares and `rej` in every state that agrees on what the encoder
sees, and keeps the rest of that state. -/
theorem exec_enc_of_agree {i : Instr} {s s' t : State} (hi : isEnc i = true) (h : exec i s = .next t)
    (ha : EncAgree s s') : exec i s' = .next { s' with enc := t.enc, sh := t.sh, rej := t.rej } := by
  obtain ⟨henc, hsh, hw, hl⟩ := ha
  obtain rfl | rfl | ⟨d, draws, rfl⟩ | rfl | rfl := (isEnc_eq_true_iff i).mp hi
  · cases h
    simp [exec, execEncNop, accept, ← henc, ← hsh]
  · cases h
    simp [exec, execEncStart, accept, ← hsh]
  · obtain ⟨hrun, hdraws, rfl⟩ | ⟨hno, rfl⟩ := execEncByte_cases h
    · simp [exec, execEncByte, accept, pushShares, henc, hsh, hw, hl, hrun, hdraws]
    · rw [← henc, ← hw] at hno
      simp [exec, execEncByte, if_neg hno, reject, ← henc, ← hsh]
  · obtain ⟨hrun, rfl⟩ | ⟨hno, rfl⟩ := execEncEnd_cases h
    · simp [exec, execEncEnd, accept, henc, ← hsh, hrun]
    · rw [← henc] at hno
      simp [exec, execEncEnd, if_neg hno, reject, ← henc, ← hsh]
  · cases h
    simp [exec, execEncAbort, accept, clearEnc, ← hsh]

/-- A decoder command does the same to the decoder, the output and `rej` in every state that agrees on what the decoder
sees, and keeps the rest of that state. -/
theorem exec_dec_of_agree {i : Instr} {s s' t : State} (hi : isEnc i = false) (h : exec i s = .next t)
    (ha : DecAgree s s') : exec i s' = .next { s' with dec := t.dec, out := t.out, rej := t.rej } := by
  obtain ⟨hdec, hout, hl⟩ := ha
  obtain rfl | ⟨mask, len, rfl⟩ | ⟨w, rfl⟩ | rfl := (isEnc_eq_false_iff i).mp hi
  · cases h
    simp [exec, execDecNop, accept, ← hdec, ← hout]
  · obtain ⟨e, hf, rfl⟩ | ⟨hf, rfl⟩ := execDecStart_cases h
    · simp [exec, execDecStart, hl, hf, raiseError, latchMask, accept, ← hout]
    · simp [exec, execDecStart, hl, hf, openDecode, latchMask, accept, ← hout]
  · obtain ⟨hrun, k, hk, rfl⟩ | ⟨hrun, hk, rfl⟩ | ⟨hno, rfl⟩ := execDecWord_cases h
    · simp [exec, execDecWord, hdec, hl, hrun, hk, raiseError, accept, ← hout]
    · simp [exec, execDecWord, hdec, hl, hrun, hk, advanceDecode, pushOut, accept, hout]
    · rw [← hdec] at hno
      simp [exec, execDecWord, if_neg hno, reject, ← hdec, ← hout]
  · cases h
    simp [exec, execDecAbort, leaveFault, clearDec, accept, ← hout]

/-- An encoder command changes the encoder's registers, the shares and `rej` only. -/
theorem exec_enc_frame {i : Instr} {s t : State} (hi : isEnc i = true) (h : exec i s = .next t) :
    t.dec = s.dec ∧ t.out = s.out ∧ t.lenW = s.lenW ∧ t.weights = s.weights ∧ t.port = s.port := by
  rw [exec_next_unique h (exec_enc_of_agree hi h ⟨rfl, rfl, rfl, rfl⟩)]
  exact ⟨rfl, rfl, rfl, rfl, rfl⟩

/-- A decoder command changes the decoder's registers, the output and `rej` only. -/
theorem exec_dec_frame {i : Instr} {s t : State} (hi : isEnc i = false) (h : exec i s = .next t) :
    t.enc = s.enc ∧ t.sh = s.sh ∧ t.lenW = s.lenW ∧ t.weights = s.weights ∧ t.port = s.port := by
  rw [exec_next_unique h (exec_dec_of_agree hi h ⟨rfl, rfl, rfl⟩)]
  exact ⟨rfl, rfl, rfl, rfl, rfl⟩

/-- Only `ENC.BYTE` pushes to the shares. -/
theorem exec_sh_of_ne_encByte {i : Instr} {s t : State} (hi : isEnc i = true) (h : exec i s = .next t)
    (hne : ∀ d draws, i ≠ .encByte d draws) : t.sh = s.sh := by
  obtain rfl | rfl | ⟨d, draws, rfl⟩ | rfl | rfl := (isEnc_eq_true_iff i).mp hi
  · cases h; rfl
  · cases h; rfl
  · exact absurd rfl (hne d draws)
  · obtain ⟨-, rfl⟩ | ⟨-, rfl⟩ := execEncEnd_cases h <;> rfl
  · cases h; rfl

/-- Only `DEC.WORD` pushes to the output. -/
theorem exec_out_of_ne_decWord {i : Instr} {s t : State} (hi : isEnc i = false) (h : exec i s = .next t)
    (hne : ∀ w, i ≠ .decWord w) : t.out = s.out := by
  obtain rfl | ⟨mask, len, rfl⟩ | ⟨w, rfl⟩ | rfl := (isEnc_eq_false_iff i).mp hi
  · cases h; rfl
  · obtain ⟨e, -, rfl⟩ | ⟨-, rfl⟩ := execDecStart_cases h <;> rfl
  · exact absurd rfl (hne w)
  · cases h; rfl

/-- `ENC.BYTE` keeps `ENC_STATE`, whether it is accepted or rejected (R95). -/
theorem execEncByte_keeps_state {d : Byte} {draws : Octet DrawPair} {s t : State} (h : execEncByte d draws s = .next t) :
    t.enc.state = s.enc.state := by
  obtain ⟨-, -, rfl⟩ | ⟨-, rfl⟩ := execEncByte_cases h <;> rfl

/-- `ENC.END` writes `ENC_STATE` only (R96). -/
theorem execEncEnd_keeps_count_dp {s t : State} (h : execEncEnd s = .next t) :
    t.enc.count = s.enc.count ∧ t.enc.dp = s.enc.dp := by
  obtain ⟨-, rfl⟩ | ⟨-, rfl⟩ := execEncEnd_cases h <;> exact ⟨rfl, rfl⟩

/-- `DEC.WORD` keeps the latched mask and its count, whether it votes, faults or is rejected (R117, R157). -/
theorem execDecWord_keeps_mask_n {w : Quad ShareWord} {s t : State} (h : execDecWord w s = .next t) :
    t.dec.mask = s.dec.mask ∧ t.dec.n = s.dec.n := by
  obtain ⟨-, k, -, rfl⟩ | ⟨-, -, rfl⟩ | ⟨-, rfl⟩ := execDecWord_cases h <;> exact ⟨rfl, rfl⟩

/-- No command changes `LEN_W` or the weights (R5, R25). -/
theorem exec_keeps_parameters {i : Instr} {s t : State} (h : exec i s = .next t) :
    t.lenW = s.lenW ∧ t.weights = s.weights := by
  cases hi : isEnc i with
  | true =>
    obtain ⟨-, -, hlenW, hweights, -⟩ := exec_enc_frame hi h
    exact ⟨hlenW, hweights⟩
  | false =>
    obtain ⟨-, -, hlenW, hweights, -⟩ := exec_dec_frame hi h
    exact ⟨hlenW, hweights⟩

/-- No event changes `LEN_W` or the weights (R5, R25). -/
theorem step_keeps_parameters {s t : State} (h : step s = .next t) : t.lenW = s.lenW ∧ t.weights = s.weights := by
  obtain ⟨-, rfl⟩ | ⟨rest, cmd, i, -, -, he⟩ | ⟨rest, cmd, e, -, -, rfl⟩ | ⟨rest, -, rfl⟩ | ⟨rest, -, rfl⟩ | ⟨rest, -, rfl⟩ :=
    step_cases h
  · exact ⟨rfl, rfl⟩
  · exact exec_keeps_parameters (s := { s with port := rest }) he
  · exact ⟨rfl, rfl⟩
  · exact ⟨rfl, rfl⟩
  · exact ⟨rfl, rfl⟩
  · exact ⟨rfl, rfl⟩

/-- Settles O36: the general frame is `exec_enc_frame`; the shares and the registers of single commands have a lemma
each. -/
theorem encoderCommandFrame : Obligations.EncoderCommandFrame := by
  intro i s t hi h
  obtain ⟨hdec, hout, hlenW, hweights, hport⟩ := exec_enc_frame hi h
  refine ⟨hdec, hout, hlenW, hweights, hport, exec_sh_of_ne_encByte hi h, ?nop, ?byte, ?endOp⟩
  case nop => rintro rfl; cases h; rfl
  case byte => rintro d draws rfl; exact execEncByte_keeps_state h
  case endOp => rintro rfl; exact execEncEnd_keeps_count_dp h

/-- Settles O37: the general frame is `exec_dec_frame`; the output and the registers of single commands have a lemma
each. -/
theorem decoderCommandFrame : Obligations.DecoderCommandFrame := by
  intro i s t hi h
  obtain ⟨henc, hsh, hlenW, hweights, hport⟩ := exec_dec_frame hi h
  refine ⟨henc, hsh, hlenW, hweights, hport, exec_out_of_ne_decWord hi h, ?nop, ?word⟩
  case nop => rintro rfl; cases h; rfl
  case word => rintro w rfl; exact execDecWord_keeps_mask_n h

/-- Settles O39: in a state that agrees on what the unit sees, the outcome is the one `exec_enc_of_agree` or
`exec_dec_of_agree` names. -/
theorem unitsDoNotSeeEachOther : Obligations.UnitsDoNotSeeEachOther := by
  intro i s s' t t' h h' hl
  constructor
  · intro hi henc hw hsh
    rw [exec_next_unique h' (exec_enc_of_agree hi h ⟨henc.symm, hsh.symm, hw.symm, hl.symm⟩)]
    exact ⟨rfl, rfl, rfl⟩
  · intro hi hdec hout
    rw [exec_next_unique h' (exec_dec_of_agree hi h ⟨hdec.symm, hout.symm, hl.symm⟩)]
    exact ⟨rfl, rfl, rfl⟩

/-- Settles O40: `i` leaves what the decoder sees and `j` what the encoder sees, so each does after the other what it does
from `s`, and both orders end with `i`'s encoder and shares and `j`'s decoder and output. -/
theorem unitsCommute : Obligations.UnitsCommute := by
  intro i j s hi hj
  obtain ⟨a, ha⟩ := exec_total i s
  obtain ⟨b, hb⟩ := exec_total j s
  obtain ⟨hdec, hout, hlenA, hweightsA, hportA⟩ := exec_enc_frame hi ha
  obtain ⟨henc, hsh, hlenB, hweightsB, hportB⟩ := exec_dec_frame hj hb
  have hab := exec_dec_of_agree hj hb (s' := a) ⟨hdec, hout, hlenA⟩
  have hba := exec_enc_of_agree hi ha (s' := b) ⟨henc, hsh, hweightsB, hlenB⟩
  refine ⟨a, _, b, _, ha, hab, hb, hba, ?_, rfl, rfl⟩
  simp only [hlenA, hlenB, hweightsA, hweightsB, hportA, hportB]

/-- Settles O7: `step` takes the command from the head of the port, decodes it and executes it. -/
theorem stepRunsDecodedInstruction : Obligations.StepRunsDecodedInstruction := by
  intro s cmd rest i hport hdecode
  simp only [step, nextEvent_cons hport, hdecode]

/-- Settles O33: every event keeps the parameters, and the two machines are the same by definition. -/
theorem parametersAreFixed : Obligations.ParametersAreFixed :=
  ⟨fun _ _ => step_keeps_parameters, fun _ _ => ⟨rfl, rfl⟩, rfl⟩

end Sys2Proof.Machine

/-! ### The invariant of the registers

A command acts on one unit, so `encInv` and `decInv` are kept one at a time: each outcome of an encoder command keeps the
first, each outcome of a decoder command the second, and `exec_enc_frame` and `exec_dec_frame` carry the other over. -/

namespace Sys2Proof

/-- The decoder gives only terms that a command word can carry: every draw and every length is read from a field of its
own width (R67, R70, R71). -/
theorem decode_wellFormed {lenW cmd : Nat} {i : Instr} (h : decode lenW cmd = .ok i) : i.wellFormed lenW = true := by
  have hdraw (k : Fin 8) : (drawField cmd k).fits = true := by
    rw [DrawPair.fits, Bool.and_eq_true]
    exact ⟨decide_eq_true (BitVec.isLt _), decide_eq_true (BitVec.isLt _)⟩
  unfold decode at h
  split at h <;> cases h
  case h_3 => simp [Instr.wellFormed, Octet.toList, Octet.ofFn, hdraw]
  case h_7 => simp [Instr.wellFormed, Quad.toList, Quad.ofFn, lenField_lt]
  all_goals rfl

/-- The lengths of a well-formed `DEC.START` fit their fields (R71). -/
theorem len_lt_of_wellFormed {lenW : Nat} {mask : BitVec 4} {len : Quad Nat}
    (h : (Instr.decStart mask len).wellFormed lenW = true) (j : Fin 4) : len.get j < 2 ^ lenW := by
  simp only [Instr.wellFormed, List.all_eq_true, decide_eq_true_eq] at h
  exact h _ (by fin_cases j <;> simp [Quad.toList, Quad.get])

namespace Machine

/-! #### Lanes and columns -/

/-- The reference lane is enabled wherever a lane is (R116). -/
theorem refLane_enabled {mask : BitVec 4} (h : 0 < popcount mask) : mask.getLsbD (refLane mask).val = true := by
  obtain ⟨j, lanes, hl⟩ := List.exists_cons_of_length_pos h
  rw [← mem_enabledLanes, refLane, hl]
  exact List.mem_cons_self

/-- `DEC_ELANE` holds every lane number (R23). -/
@[simp] theorem laneNumber_toNat (j : Fin 4) : (laneNumber j).toNat = j.val := by
  simp [laneNumber]

theorem laneNumber_inj {i j : Fin 4} : laneNumber i = laneNumber j ↔ i = j := by
  rw [BitVec.toNat_eq, laneNumber_toNat, laneNumber_toNat, Fin.val_inj]

/-- Three or four enabled lanes, as `DEC_N` counts them. -/
theorem three_or_four_of_le_popcount {mask : BitVec 4} (h : 3 ≤ popcount mask) :
    BitVec.ofNat 3 (popcount mask) = 3 ∨ BitVec.ofNat 3 (popcount mask) = 4 := by
  have := popcount_le_four mask
  obtain h | h : popcount mask = 3 ∨ popcount mask = 4 := by omega
  · exact .inl (by rw [h]; rfl)
  · exact .inr (by rw [h]; rfl)

/-- The counts of equal pairs that four symbols can have (R114). -/
theorem same_of_length_four {c : List Symbol} (h : c.length = 4) :
    same c = 0 ∨ same c = 1 ∨ same c = 2 ∨ same c = 3 ∨ same c = 6 := by
  obtain ⟨x, y, z, u, rfl⟩ := List.length_eq_four.mp h
  clear h
  revert x y z u
  decide

/-- A corrupt column is one of four symbols with one or three equal pairs: the three-lane rule declares no corruption,
and the four-lane rule none for the counts 0, 2 and 6 (R112 to R114). -/
theorem corrupt_column {n : BitVec 3} {mask : BitVec 4} {w : Quad ShareWord} {k : Fin 8}
    (hn : n.toNat = popcount mask) (h : wordVote n mask w k = .corrupt) :
    n = 4 ∧ (same (decColumn mask w k) = 1 ∨ same (decColumn mask w k) = 3) := by
  unfold wordVote decPos at h
  split at h
  case isTrue h4 =>
    subst h4
    refine ⟨rfl, ?_⟩
    have hlen : (decColumn mask w k).length = 4 := by rw [decColumn_length, ← hn]; rfl
    obtain hs | hs | hs | hs | hs := same_of_length_four hlen
    case inr.inl => exact .inl hs
    case inr.inr.inr.inl => exact .inr hs
    all_goals rw [hs] at h; cases h
  case isFalse => exact absurd h (classify3_ne_corrupt _)

/-! #### The registers of the encoder -/

/-- The encoder's invariant at its reset values (R31, R33). -/
theorem encInv_zero (lenW : Nat) : encInv lenW EncRegs.zero :=
  ⟨by decide, fun _ => rfl, Nat.two_pow_pos lenW, rfl⟩

/-- An encoder command keeps the encoder's invariant. -/
theorem exec_enc_keeps_encInv {i : Instr} {s t : State} (hi : isEnc i = true) (h : exec i s = .next t)
    (hinv : encInv s.lenW s.enc) : encInv s.lenW t.enc := by
  obtain ⟨hstate, hidle, hcount, hdp⟩ := hinv
  obtain rfl | rfl | ⟨d, draws, rfl⟩ | rfl | rfl := (isEnc_eq_true_iff i).mp hi
  · cases h
    exact ⟨hstate, hidle, hcount, hdp⟩
  · cases h
    exact ⟨by simp, fun _ => rfl, Nat.two_pow_pos s.lenW, rfl⟩
  · obtain ⟨hrun, -, rfl⟩ | ⟨-, rfl⟩ := execEncByte_cases h
    · exact ⟨by simp [hrun], by simp [hrun], nextCount_lt _ _, rfl⟩
    · exact ⟨hstate, hidle, hcount, hdp⟩
  · obtain ⟨-, rfl⟩ | ⟨-, rfl⟩ := execEncEnd_cases h
    · exact ⟨by simp, by simp, hcount, hdp⟩
    · exact ⟨hstate, hidle, hcount, hdp⟩
  · cases h
    exact encInv_zero s.lenW

/-! #### The registers of the decoder -/

/-- The decoder's invariant at its reset values (R31, R33). -/
theorem decInv_zero (lenW : Nat) : decInv lenW DecRegs.zero :=
  ⟨rfl, by decide, by decide, by decide, fun _ => rfl, rfl, Nat.two_pow_pos _, rfl, rfl⟩

/-- A fault of `DEC.START` keeps the decoder's invariant where its error registers hold what its code calls for: every
other register is cleared or latched (R116, R157). -/
theorem decInv_raiseError_latchMask {lenW : Nat} {e : ErrorRegs} {mask : BitVec 4} {s : State}
    (hcode : e.ecode ≠ .none) (herr : errInv lenW (raiseError e (latchMask mask s)).dec = true) :
    decInv lenW (raiseError e (latchMask mask s)).dec :=
  ⟨popcount_toNat mask, by simpa using hcode, by simp, by simp, by simp, rfl, Nat.two_pow_pos _, rfl, herr⟩

/-- With no error code the error registers are all 0. -/
theorem errInv_iff_of_none {lenW : Nat} {r : DecRegs} (h : r.err.ecode = .none) :
    errInv lenW r = true ↔ r.err = ErrorRegs.zero := by
  simp [errInv, h]

/-- The decoder's invariant in an invocation without a fault, which runs while words are left and is done then. -/
theorem decInv_of_no_fault {lenW : Nat} {r : DecRegs} (hn : r.n.toNat = popcount r.mask) (hlanes : r.n = 3 ∨ r.n = 4)
    (hstate : r.state = if r.rem = 0 then .done else .run) (hmod : r.pos % 8 = 0)
    (hfit : r.pos + 8 * r.rem < 2 ^ Config.posW lenW) (hdp : r.dp = DecDatapath.zero) (herr : r.err = ErrorRegs.zero) :
    decInv lenW r := by
  have hnone : r.err.ecode = .none := by rw [herr]; rfl
  have herrInv := (errInv_iff_of_none (lenW := lenW) hnone).mpr herr
  by_cases h0 : r.rem = 0
  · rw [if_pos h0] at hstate
    exact ⟨hn, by simp [hstate, hnone], by simp [hstate], fun _ => ⟨hlanes, h0⟩, by simp [hstate], hmod, hfit, hdp, herrInv⟩
  · rw [if_neg h0] at hstate
    exact ⟨hn, by simp [hstate, hnone], fun _ => ⟨hlanes, Nat.pos_of_ne_zero h0⟩, by simp [hstate], by simp [hstate],
      hmod, hfit, hdp, herrInv⟩

/-- A `DEC.START` that passes its checks keeps the decoder's invariant: the common length is even and fits `LEN_W`
bits, so four times it fits `POS_W` bits. -/
theorem decInv_openDecode_latchMask {lenW L : Nat} {mask : BitVec 4} {s : State} (hmask : 3 ≤ popcount mask)
    (heven : L % 2 = 0) (hL : L < 2 ^ lenW) : decInv lenW (openDecode L (latchMask mask s)).dec := by
  have hrem : L / 2 = 0 ↔ L = 0 := by omega
  refine decInv_of_no_fault (popcount_toNat mask) (three_or_four_of_le_popcount hmask) ?_ rfl ?_ rfl rfl
  · simp [hrem]
  · simp only [openDecode_dec, Config.posW, Nat.pow_add]
    omega

/-- Too few lanes: the expected and the actual count are recorded as their registers hold them (R151). -/
theorem decInv_insufficientShares {lenW : Nat} {mask : BitVec 4} {s : State} (hp : popcount mask < 3) :
    decInv lenW (raiseError (insufficientShares lenW (popcount mask)) (latchMask mask s)).dec := by
  refine decInv_raiseError_latchMask (by simp [insufficientShares]) (decide_eq_true ?_)
  refine ⟨by rwa [raiseError_dec, latchMask_dec, popcount_toNat], rfl, rfl, ?_⟩
  simp [insufficientShares, ErrorRegs.zero]

/-- Lanes of different lengths: the lane recorded is enabled and is not the reference lane, from which it differs
(R152). -/
theorem decInv_unequalLengths {lenW : Nat} {mask : BitVec 4} {len : Quad Nat} {j : Fin 4} {s : State}
    (hp : 3 ≤ popcount mask) (hlen : ∀ i, len.get i < 2 ^ lenW) (hj : differingLane mask len = some j) :
    decInv lenW (raiseError (unequalLengths (len.get (refLane mask)) (len.get j) j) (latchMask mask s)).dec := by
  obtain ⟨hon, hne⟩ := differingLane_some hj
  refine decInv_raiseError_latchMask (by simp [unequalLengths]) (decide_eq_true ?_)
  refine ⟨by rwa [raiseError_dec, latchMask_dec, popcount_toNat], rfl, rfl, rfl, rfl, hlen _, hlen j, ?_, ?_, ?_⟩
  · simpa [unequalLengths] using hon
  · refine fun _ => ⟨hne.symm, fun heq => hne ?_⟩
    rw [laneNumber_inj.mp heq]
    rfl
  · simp [unequalLengths]

/-- One odd length: the expected length is one less, and the lane recorded is the reference lane (R153). -/
theorem decInv_oddLength {lenW L : Nat} {mask : BitVec 4} {s : State} (hp : 3 ≤ popcount mask) (hL : L < 2 ^ lenW)
    (hodd : L % 2 = 1) : decInv lenW (raiseError (oddLength L (refLane mask)) (latchMask mask s)).dec := by
  have hexp : (oddLength L (refLane mask)).eexp + 1 = L := Nat.sub_add_cancel (by omega)
  have hexp_lt : (oddLength L (refLane mask)).eexp < 2 ^ lenW := by omega
  refine decInv_raiseError_latchMask (by simp [oddLength]) (decide_eq_true ?_)
  refine ⟨by rwa [raiseError_dec, latchMask_dec, popcount_toNat], rfl, rfl, rfl, rfl, hexp_lt, hL, ?_, ?_, ?_⟩
  · simpa [oddLength] using refLane_enabled (by omega : 0 < popcount mask)
  · simp [oddLength]
  · exact fun _ => ⟨hodd, hexp, rfl⟩

/-- Every outcome of `DEC.START` keeps the decoder's invariant, whatever it was before (R116, R156). -/
theorem execDecStart_decInv {mask : BitVec 4} {len : Quad Nat} {s t : State} (hlen : ∀ j, len.get j < 2 ^ s.lenW)
    (h : execDecStart mask len s = .next t) : decInv s.lenW t.dec := by
  obtain ⟨hp, hf⟩ | ⟨hp, j, hj, hf⟩ | ⟨hp, -, hodd, hf⟩ | ⟨hp, -, heven, hf⟩ := startFault_cases s.lenW mask len
    <;> simp only [execDecStart, hf, Host.Outcome.next.injEq] at h <;> subst h
  · exact decInv_insufficientShares hp
  · exact decInv_unequalLengths hp hlen hj
  · exact decInv_oddLength hp (hlen _) hodd
  · exact decInv_openDecode_latchMask hp heven (hlen _)

/-- In `RUN` a word is left and its eight positions fit `POS_W` bits: no position of the word carries out of them
(R18, R124). -/
theorem addPos_of_run {lenW n : Nat} {r : DecRegs} (hinv : decInv lenW r) (hrun : r.state = .run) (h8 : n ≤ 8) :
    addPos lenW r.pos n = r.pos + n := by
  obtain ⟨-, -, hr, -, -, -, hfit, -, -⟩ := hinv
  obtain ⟨-, hrem⟩ := hr hrun
  exact addPos_eq (by omega)

/-- In `RUN` the words left fit `LEN_W` bits, so their count goes down by one without wrapping (R17, R124). -/
theorem prevCount_of_run {lenW : Nat} {r : DecRegs} (hinv : decInv lenW r) (hrun : r.state = .run) :
    prevCount lenW r.rem + 1 = r.rem := by
  obtain ⟨-, -, hr, -, -, -, hfit, -, -⟩ := hinv
  obtain ⟨-, hrem⟩ := hr hrun
  simp only [Config.posW, Nat.pow_add] at hfit
  rw [prevCount_eq hrem (by omega)]
  omega

/-- In `RUN` no error is recorded (R33). -/
theorem err_of_run {lenW : Nat} {r : DecRegs} (hinv : decInv lenW r) (hrun : r.state = .run) :
    r.err = ErrorRegs.zero := by
  obtain ⟨-, hfault, -, -, -, -, -, -, herr⟩ := hinv
  refine (errInv_iff_of_none ?_).mp herr
  by_contra hne
  rw [hfault.mpr hne] at hrun
  cases hrun

/-- A word without a corrupt column keeps the decoder's invariant: the position moves up by what the words left lose. -/
theorem decInv_advanceDecode {s : State} (b : Byte) (hinv : decInv s.lenW s.dec) (hrun : s.dec.state = .run) :
    decInv s.lenW (advanceDecode b s).dec := by
  have hpos : (advanceDecode b s).dec.pos = s.dec.pos + 8 := addPos_of_run hinv hrun le_rfl
  have hprev : (advanceDecode b s).dec.rem + 1 = s.dec.rem := prevCount_of_run hinv hrun
  have herr := err_of_run hinv hrun
  obtain ⟨hn, -, hr, -, -, hmod, hfit, -, -⟩ := hinv
  obtain ⟨hlanes, -⟩ := hr hrun
  exact decInv_of_no_fault hn hlanes rfl (by omega) (by omega) rfl herr

/-- A word with a corrupt column keeps the decoder's invariant: the position recorded is one of the eight of the
word, and the count recorded is 1 or 3 (R117, R154). -/
theorem decInv_raiseError_corruptedInput {s : State} {w : Quad ShareWord} {k : Fin 8} (hinv : decInv s.lenW s.dec)
    (hrun : s.dec.state = .run) (hk : wordVote s.dec.n s.dec.mask w k = .corrupt) :
    decInv s.lenW
      (raiseError (corruptedInput (addPos s.lenW s.dec.pos k.val) (same (decColumn s.dec.mask w k))) s).dec := by
  rw [addPos_of_run hinv hrun (by omega)]
  obtain ⟨hn, -, hr, -, -, hmod, hfit, -, -⟩ := hinv
  obtain ⟨-, hrem⟩ := hr hrun
  obtain ⟨h4, hsame⟩ := corrupt_column hn hk
  refine ⟨hn, by simp [corruptedInput], by simp, by simp, by simp, hmod, hfit, rfl, decide_eq_true ?_⟩
  refine ⟨h4, ?_, hrem, Nat.le_add_right _ _, Nat.add_le_add_left (by omega) _, rfl, rfl, rfl, rfl⟩
  obtain hs | hs := hsame <;> simp [corruptedInput, hs]

/-- Every outcome of `DEC.WORD` keeps the decoder's invariant (R117). -/
theorem execDecWord_decInv {w : Quad ShareWord} {s t : State} (hinv : decInv s.lenW s.dec)
    (h : execDecWord w s = .next t) : decInv s.lenW t.dec := by
  obtain ⟨hrun, k, hk, rfl⟩ | ⟨hrun, -, rfl⟩ | ⟨-, rfl⟩ := execDecWord_cases h
  · exact decInv_raiseError_corruptedInput hinv hrun (firstCorrupt_some hk)
  · exact decInv_advanceDecode _ hinv hrun
  · exact hinv

/-- A decoder command that a command word can carry keeps the decoder's invariant. -/
theorem exec_dec_keeps_decInv {i : Instr} {s t : State} (hi : isEnc i = false) (hwf : i.wellFormed s.lenW = true)
    (h : exec i s = .next t) (hinv : decInv s.lenW s.dec) : decInv s.lenW t.dec := by
  obtain rfl | ⟨mask, len, rfl⟩ | ⟨w, rfl⟩ | rfl := (isEnc_eq_false_iff i).mp hi
  · cases h
    exact hinv
  · exact execDecStart_decInv (len_lt_of_wellFormed hwf) h
  · exact execDecWord_decInv hinv h
  · cases h
    exact decInv_zero s.lenW

/-! #### The invariant of CORE -/

/-- A command that a command word can carry keeps the invariant: it keeps that of its own unit and leaves the registers
of the other unit and the OPEN parameters as they are. -/
theorem exec_keeps_inv {i : Instr} {s t : State} (hwf : i.wellFormed s.lenW = true) (h : exec i s = .next t)
    (hinv : s.Inv) : t.Inv := by
  obtain ⟨henc, hdec, hparams⟩ := hinv
  obtain ⟨hl, hw⟩ := exec_keeps_parameters h
  unfold State.Inv State.parametersAdmissible
  rw [hl, hw]
  cases hi : isEnc i with
  | true =>
    obtain ⟨hd, -⟩ := exec_enc_frame hi h
    exact ⟨exec_enc_keeps_encInv hi h henc, hd ▸ hdec, hparams⟩
  | false =>
    obtain ⟨he, -⟩ := exec_dec_frame hi h
    exact ⟨he ▸ henc, exec_dec_keeps_decInv hi hwf h hdec, hparams⟩

/-- Settles O32: a decoded command is well-formed, so `exec_keeps_inv` applies; reset gives both units their reset
values; every other event leaves the registers as they are. -/
theorem stepKeepsInvariant : Obligations.StepKeepsInvariant := by
  intro s t hinv h
  obtain ⟨-, rfl⟩ | ⟨rest, cmd, i, -, hd, he⟩ | ⟨rest, cmd, e, -, -, rfl⟩ | ⟨rest, -, rfl⟩ | ⟨rest, -, rfl⟩ | ⟨rest, -, rfl⟩ :=
    step_cases h
  case inr.inl => exact exec_keeps_inv (s := { s with port := rest }) (decode_wellFormed hd) he hinv
  case inr.inr.inr.inl =>
    obtain ⟨-, -, hparams⟩ := hinv
    exact ⟨encInv_zero s.lenW, decInv_zero s.lenW, hparams⟩
  all_goals exact hinv

/-- Settles O12: both units of the reset state are `EncRegs.zero` and `DecRegs.zero`, whatever the parameters. -/
theorem resetRegisterValues : Obligations.ResetRegisterValues := by
  rintro lenW weights r rfl
  and_intros <;> rfl

/-- Settles O31: both units are at their reset values, and the parameters are admissible by hypothesis. -/
theorem invariantAtReset : Obligations.InvariantAtReset :=
  fun lenW _ hlenW hweights => ⟨encInv_zero lenW, decInv_zero lenW, hlenW, hweights⟩

/-- Settles O41: `DEC.START` sets the position to 0 and the count to half the common even length; in `RUN` a word moves
both counters without wrapping. -/
theorem positionAndRemainderBalance : Obligations.PositionAndRemainderBalance := by
  constructor
  case left =>
    intro s t mask len j h hstate hj
    obtain ⟨e, -, rfl⟩ | ⟨hnone, rfl⟩ := execDecStart_cases h
    · exact absurd rfl hstate
    · obtain ⟨-, hf⟩ | ⟨-, j, -, hf⟩ | ⟨-, -, -, hf⟩ | ⟨-, hd, heven, -⟩ := startFault_cases s.lenW mask len
      case inr.inr.inr =>
        rw [(differingLane_eq_none mask len).mp hd j hj, openDecode_dec]
        show 0 + 8 * (len.get (refLane mask) / 2) = 4 * len.get (refLane mask)
        omega
      all_goals rw [hnone] at hf; cases hf
  case right =>
    intro s t w hinv h hrej hstate
    obtain ⟨-, hdec, -⟩ := hinv
    obtain ⟨-, k, -, rfl⟩ | ⟨hrun, -, rfl⟩ | ⟨-, rfl⟩ := execDecWord_cases h
    · exact absurd rfl hstate
    · have hpos := addPos_of_run hdec hrun le_rfl
      have hprev := prevCount_of_run hdec hrun
      rw [advanceDecode_dec]
      exact ⟨hpos, hprev, by simp only [hpos]; omega⟩
    · cases hrej

end Machine
end Sys2Proof

/-! ### The serial datapaths

`encAt` and `decAt` are the datapath registers once the first `m` positions are done. One position takes each from `m` to
`m + 1`, so eight positions give the words and the byte of all of them taken at once. -/

namespace Sys2Proof.Machine

/-! #### Words and bytes, position by position -/

/-- Each symbol comes back from the place it was packed at (R93, R110). -/
@[simp] theorem unpackSym_packWord (y : Fin 8 → Symbol) (k : Fin 8) : unpackSym (packWord y) k = y k := by
  fin_cases k <;> simp (disch := decide) only [unpackSym, packWord, extract_append_high, extract_append_low]
    <;> exact BitVec.extractLsb'_eq_self

/-- A share word is its eight symbols (R44). -/
theorem shareWord_ext {v w : ShareWord} (h : ∀ k, unpackSym v k = unpackSym w k) : v = w := by
  apply BitVec.eq_of_getLsbD_eq
  intro n hn
  have hk := congrArg (BitVec.getLsbD · (n % 2)) (h ⟨7 - n / 2, by omega⟩)
  have hplace : 14 - 2 * (7 - n / 2) + n % 2 = n := by omega
  have hbit : n % 2 < 2 := by omega
  simpa only [unpackSym, BitVec.getLsbD_extractLsb', hplace, hbit, decide_true, Bool.true_and] using hk

/-- Each bit comes back from the place it was put at (R42, R45). -/
@[simp] theorem byteBit_packByte (v : Fin 8 → Bool) (k : Fin 8) : byteBit (packByte v) k = v k := by
  fin_cases k <;> simp only [byteBit, packByte, BitVec.getLsbD_append, BitVec.getLsbD_ofBool] <;> rfl

/-- A byte is its eight bits (R42). -/
theorem byte_ext {a b : Byte} (h : ∀ k, byteBit a k = byteBit b k) : a = b := by
  apply BitVec.eq_of_getLsbD_eq
  intro n hn
  have hplace : 7 - (7 - n) = n := by omega
  simpa only [byteBit, hplace] using h ⟨7 - n, by omega⟩

/-- A symbol that enters a packer joins what stands at its own position and touches no other (R13). -/
theorem unpackSym_packerPut (k i : Fin 8) (pk : ShareWord) (s : Symbol) :
    unpackSym (packerPut (BitVec.ofNat 3 k.val) pk s) i = if i = k then unpackSym pk i ||| s else unpackSym pk i := by
  have hk : (BitVec.ofNat 3 k.val).toNat = k.val := Nat.mod_eq_of_lt k.isLt
  apply BitVec.eq_of_getLsbD_eq
  intro n hn
  simp only [unpackSym, packerPut, hk, hn, BitVec.getLsbD_extractLsb', BitVec.getLsbD_or, BitVec.getLsbD_shiftLeft,
    BitVec.getLsbD_setWidth]
  obtain hlt | rfl | hgt := lt_trichotomy i k
  · have hbeyond : 2 ≤ 14 - 2 * i.val + n - (14 - 2 * k.val) := by omega
    simp [hlt.ne, BitVec.getLsbD_of_ge s _ hbeyond, hn]
  · have hplace : 14 - 2 * i.val + n - (14 - 2 * i.val) = n := by omega
    have hin : 14 - 2 * i.val + n < 16 := by omega
    simp [hplace, hin, hn, show n < 16 by omega]
  · have hbelow : 14 - 2 * i.val + n < 14 - 2 * k.val := by omega
    simp [hgt.ne', hbelow, hn]

/-- A bit that enters the accumulator joins what stands at its own place and touches no other (R24). -/
theorem byteBit_or_shiftLeft (k i : Fin 8) (acc : Byte) (b : Bool) :
    byteBit (acc ||| ((BitVec.ofBool b).setWidth 8 <<< (7 - (BitVec.ofNat 3 k.val).toNat))) i
      = if i = k then (byteBit acc i || b) else byteBit acc i := by
  have hk : (BitVec.ofNat 3 k.val).toNat = k.val := Nat.mod_eq_of_lt k.isLt
  simp only [byteBit, hk, BitVec.getLsbD_or, BitVec.getLsbD_shiftLeft, BitVec.getLsbD_setWidth]
  obtain hlt | rfl | hgt := lt_trichotomy i k
  · have hbeyond : 1 ≤ 7 - i.val - (7 - k.val) := by omega
    simp [hlt.ne, BitVec.getLsbD_of_ge (BitVec.ofBool b) _ hbeyond]
  · have hin : 7 - i.val < 8 := by omega
    simp [hin]
  · have hbelow : 7 - i.val < 7 - k.val := by omega
    simp [hgt.ne', hbelow]

/-! #### The first positions of a word -/

/-- The first `m` of eight things, `z` in the place of each of the others. -/
def upTo {α : Type} (m : Nat) (z : α) (y : Fin 8 → α) (k : Fin 8) : α := if k.val < m then y k else z

section
variable {α : Type} (z : α) (y : Fin 8 → α)

@[simp] theorem upTo_zero : upTo 0 z y = fun _ => z := rfl

@[simp] theorem upTo_eight : upTo 8 z y = y := by
  funext k
  exact if_pos k.isLt

/-- Thing `k` itself is not among the first `k`. -/
@[simp] theorem upTo_self (k : Fin 8) : upTo k.val z y k = z := if_neg (lt_irrefl _)

/-- One more thing. -/
theorem upTo_succ (k i : Fin 8) : upTo (k.val + 1) z y i = if i = k then y k else upTo k.val z y i := by
  by_cases h : i = k
  · simp [upTo, h]
  · have hlt : i.val < k.val + 1 ↔ i.val < k.val := by omega
    simp [upTo, h, hlt]

end

/-- The symbol of position `k` joins those of the positions before it. -/
theorem packerPut_upTo (y : Fin 8 → Symbol) (k : Fin 8) :
    packerPut (BitVec.ofNat 3 k.val) (packWord (upTo k.val 0 y)) (y k) = packWord (upTo (k.val + 1) 0 y) := by
  apply shareWord_ext
  intro i
  rw [unpackSym_packerPut, unpackSym_packWord, unpackSym_packWord, upTo_succ]
  split
  case isTrue h => simp [h]
  case isFalse => rfl

/-- The bit of position `k` joins those of the positions before it. -/
theorem packByte_upTo_or_shiftLeft (v : Fin 8 → Bool) (k : Fin 8) :
    packByte (upTo k.val false v) ||| ((BitVec.ofBool (v k)).setWidth 8 <<< (7 - (BitVec.ofNat 3 k.val).toNat))
      = packByte (upTo (k.val + 1) false v) := by
  apply byte_ext
  intro i
  rw [byteBit_or_shiftLeft, byteBit_packByte, byteBit_packByte, upTo_succ]
  split
  case isTrue h => simp [h]
  case isFalse => rfl

/-- The index register moves to the next position. -/
theorem ofNat_three_add_one (m : Nat) : BitVec.ofNat 3 m + 1 = BitVec.ofNat 3 (m + 1) :=
  (BitVec.ofNat_add m 1).symm

/-- The columns from position `k` on are column `k` and those after it. -/
theorem drop_allColumns (k : Fin 8) : allColumns.drop k.val = k :: allColumns.drop (k.val + 1) := by
  fin_cases k <;> rfl

/-! #### The encoder -/

/-- The encoder's datapath registers once the first `m` bits of `d` are packed (R13). -/
def encAt (w : Weights) (d : Byte) (draws : Octet DrawPair) (m : Nat) : EncDatapath :=
  { sr := d <<< m
    k := BitVec.ofNat 3 m
    pk := Quad.ofFn fun j => packWord (upTo m 0 fun k => (encColumn w d draws k).get j) }

section
variable (w : Weights) (d : Byte) (draws : Octet DrawPair)

theorem encLoad_eq_encAt : encLoad d = encAt w d draws 0 := by
  simp [encLoad, encAt, EncDatapath.zero, Quad.ofFn, packWord]

/-- With the eight bits packed, the shift register is empty and the packers hold the words of R95. -/
theorem encAt_eight : encAt w d draws 8 = { sr := 0, k := 0, pk := encWords w d draws } := by
  simp [encAt, encWords]

/-- The most significant bit of the shift register is the next bit of the source byte (R13, R42). -/
theorem msb_shiftLeft_eq_byteBit (k : Fin 8) : (d <<< k.val).msb = byteBit d k := by
  have hlt : ¬ 7 < k.val := by omega
  simp [byteBit, BitVec.msb_eq_getLsbD_last, hlt, -BitVec.getLsbD_eq_getElem]

/-- One bit of the source byte takes the registers one position on (R13, R92). -/
theorem encShift_encAt (k : Fin 8) :
    encShift w (encAt w d draws k.val) (draws.get k) = encAt w d draws (k.val + 1) := by
  simp only [encShift, encAt, msb_shiftLeft_eq_byteBit, ofNat_three_add_one, Quad.get_ofFn, BitVec.shiftLeft_add]
  congr 2
  funext j
  exact packerPut_upTo (fun k => (encColumn w d draws k).get j) k

end

/-- Positions `m` to 7 in order, each of which takes `r k` to `r (k + 1)`. -/
theorem foldl_drop_allColumns {β : Type} {f : β → Fin 8 → β} {r : Nat → β}
    (h : ∀ k : Fin 8, f (r k.val) k = r (k.val + 1)) (steps m : Nat) (hm : m + steps = 8) :
    (allColumns.drop m).foldl f (r m) = r 8 := by
  induction steps generalizing m with
  | zero => subst hm; rfl
  | succ steps ih =>
    rw [drop_allColumns ⟨m, by omega⟩, List.foldl_cons, h ⟨m, by omega⟩]
    exact ih (m + 1) (by omega)

/-- Settles O56: each of the eight draw pairs takes the registers one position on. -/
theorem serialEncoderAgrees : Obligations.SerialEncoderAgrees := by
  intro w d draws
  calc encSerial w d draws
      = allColumns.foldl (fun r k => encShift w r (draws.get k)) (encAt w d draws 0) := by
        rw [← encLoad_eq_encAt]; rfl
    _ = encAt w d draws 8 := foldl_drop_allColumns (encShift_encAt w d draws) 8 0 rfl
    _ = _ := encAt_eight w d draws

/-! #### The decoder -/

/-- The decoder's datapath registers once the first `m` positions of the words `w` have voted (R24). -/
def decAt (n : BitVec 3) (mask : BitVec 4) (w : Quad ShareWord) (m : Nat) : DecDatapath :=
  { ln := Quad.ofFn fun j => w.get j <<< (2 * m)
    k := BitVec.ofNat 3 m
    acc := packByte (upTo m false fun k => (wordVote n mask w k).value) }

section
variable (n : BitVec 3) (mask : BitVec 4) (w : Quad ShareWord)

theorem decLoad_eq_decAt : decLoad w = decAt n mask w 0 := by
  simp [decLoad, decAt, DecDatapath.zero, packByte, Quad.ofFn, Quad.get]

/-- With the eight positions voted, the lane registers are empty and the accumulator holds the byte of R117. -/
theorem decAt_eight : decAt n mask w 8 = { ln := ⟨0, 0, 0, 0⟩, k := 0, acc := wordByte n mask w } := by
  simp [decAt, wordByte, Quad.ofFn]

/-- The front of a lane register is the symbol of the next position (R24, R110). -/
theorem front_shiftLeft_eq_unpackSym (v : ShareWord) (k : Fin 8) :
    (v <<< (2 * k.val)).extractLsb' 14 2 = unpackSym v k := by
  apply BitVec.eq_of_getLsbD_eq
  intro i hi
  have hin : 14 + i < 16 := by omega
  have hlt : ¬ 14 + i < 2 * k.val := by omega
  have hplace : 14 + i - 2 * k.val = 14 - 2 * k.val + i := by omega
  simp [unpackSym, hi, hin, hlt, hplace, -BitVec.getLsbD_eq_getElem]

/-- The lane registers show the column of the next position (R117). -/
theorem decFront_decAt (k : Fin 8) : decFront mask (decAt n mask w k.val) = decColumn mask w k := by
  simp [decFront, decAt, decColumn, front_shiftLeft_eq_unpackSym]

/-- A corrupt column stops the datapath with its index and count. -/
theorem decShift_of_corrupt {k : Fin 8} (h : wordVote n mask w k = .corrupt) :
    decShift n mask (decAt n mask w k.val) = .error (BitVec.ofNat 3 k.val, same (decColumn mask w k)) := by
  have hvote : decPos n (decColumn mask w k) = .corrupt := h
  simp only [decShift, decFront_decAt, hvote]
  rfl

/-- Any other column takes the datapath one position on. -/
theorem decShift_of_bit {k : Fin 8} {b : Bool} (h : wordVote n mask w k = .bit b) :
    decShift n mask (decAt n mask w k.val) = .ok (decAt n mask w (k.val + 1)) := by
  have hvalue : (wordVote n mask w k).value = b := by rw [h]; rfl
  have hacc := packByte_upTo_or_shiftLeft (fun k => (wordVote n mask w k).value) k
  rw [hvalue] at hacc
  have hvote : decPos n (decFront mask (decAt n mask w k.val)) = .bit b := by rwa [decFront_decAt]
  simp only [decShift, hvote]
  simp only [decAt, hacc, ofNat_three_add_one, Quad.get_ofFn, ← BitVec.shiftLeft_add, Nat.mul_add, Nat.mul_one]

end

/-- What the datapath ends with, by its lowest corrupt position. -/
def serialOutcome (n : BitVec 3) (mask : BitVec 4) (w : Quad ShareWord) :
    Option (Fin 8) → Except (BitVec 3 × Nat) DecDatapath
  | some k => .error (BitVec.ofNat 3 k.val, same (decColumn mask w k))
  | none => .ok (decAt n mask w 8)

/-- From position `m` on, the datapath ends at the lowest corrupt column among those left, or with all of them voted. -/
theorem decShifts_decAt (n : BitVec 3) (mask : BitVec 4) (w : Quad ShareWord) (steps m : Nat) (hm : m + steps = 8) :
    decShifts n mask steps (decAt n mask w m)
      = serialOutcome n mask w ((allColumns.drop m).find? fun k => wordVote n mask w k == .corrupt) := by
  induction steps generalizing m with
  | zero => subst hm; rfl
  | succ steps ih =>
    rw [drop_allColumns ⟨m, by omega⟩, List.find?_cons]
    cases hv : wordVote n mask w ⟨m, by omega⟩ with
    | corrupt =>
      simp only [decShifts, decShift_of_corrupt n mask w hv]
      rfl
    | bit b =>
      simp only [decShifts, decShift_of_bit n mask w hv]
      exact ih (m + 1) (by omega)

/-- Settles O57: the positions in order look for the lowest corrupt column as `firstCorrupt` does. -/
theorem serialDecoderAgrees : Obligations.SerialDecoderAgrees := by
  intro n mask w
  have h : decSerial n mask w = serialOutcome n mask w (firstCorrupt n mask w) := by
    rw [decSerial, decLoad_eq_decAt n mask w]
    exact decShifts_decAt n mask w 8 0 rfl
  rw [h]
  cases firstCorrupt n mask w with
  | some k => rfl
  | none => exact congrArg Except.ok (decAt_eight n mask w)

end Sys2Proof.Machine


/-! ### What a command appends to the streams

`ENC.BYTE` alone pushes to the shares and `DEC.WORD` alone to the output, so the growth of each stream is that of one
command's outcomes. -/

namespace Sys2Proof.Machine

/-- A command other than `ENC.BYTE`, of either unit, leaves the shares as they are. -/
theorem exec_keeps_sh {i : Instr} {s t : State} (h : exec i s = .next t) (hne : ∀ d draws, i ≠ .encByte d draws) :
    t.sh = s.sh := by
  cases hi : isEnc i with
  | true => exact exec_sh_of_ne_encByte hi h hne
  | false =>
    obtain ⟨-, hsh, -⟩ := exec_dec_frame hi h
    exact hsh

/-- A command other than `DEC.WORD`, of either unit, leaves the output as it is. -/
theorem exec_keeps_out {i : Instr} {s t : State} (h : exec i s = .next t) (hne : ∀ w, i ≠ .decWord w) :
    t.out = s.out := by
  cases hi : isEnc i with
  | true =>
    obtain ⟨-, hout, -⟩ := exec_enc_frame hi h
    exact hout
  | false => exact exec_out_of_ne_decWord hi h hne

/-- `ENC.BYTE` pushes the two bytes of a share word to each share when it is accepted, nothing when it is rejected
(R95, R141). -/
theorem execEncByte_sh {d : Byte} {draws : Octet DrawPair} {s t : State} (h : execEncByte d draws s = .next t) :
    (t.rej = false ∧ ∀ j, t.sh.get j = s.sh.get j ++ wordBytes ((encWords s.weights d draws).get j))
    ∨ (t.rej = true ∧ t.sh = s.sh) := by
  obtain ⟨-, -, rfl⟩ | ⟨-, rfl⟩ := execEncByte_cases h
  · exact .inl ⟨rfl, fun j => by simp⟩
  · exact .inr ⟨rfl, rfl⟩

/-- A word without a corrupt column leaves the decoder in `RUN` or `DONE` (R117). -/
theorem advanceDecode_state_ne_fault (b : Byte) (s : State) : (advanceDecode b s).dec.state ≠ .fault := by
  rw [advanceDecode_dec]
  dsimp only
  split <;> decide

/-- `DEC.WORD` pushes its byte when it is accepted without a fault, nothing when it faults or is rejected (R117, R157,
R141). -/
theorem execDecWord_out {w : Quad ShareWord} {s t : State} (h : execDecWord w s = .next t) :
    (t.rej = false ∧ t.dec.state ≠ .fault ∧ t.out = s.out ++ [wordByte s.dec.n s.dec.mask w])
    ∨ ((t.rej = true ∨ t.dec.state = .fault) ∧ t.out = s.out) := by
  obtain ⟨-, k, -, rfl⟩ | ⟨-, -, rfl⟩ | ⟨-, rfl⟩ := execDecWord_cases h
  · exact .inr ⟨.inr rfl, rfl⟩
  · exact .inl ⟨rfl, advanceDecode_state_ne_fault _ s, rfl⟩
  · exact .inr ⟨.inl rfl, rfl⟩

/-- The growth of the shares: two bytes each by an accepted `ENC.BYTE`, nothing otherwise. -/
theorem exec_appends_to_sh {i : Instr} {s t : State} (h : exec i s = .next t) (j : Fin 4) :
    ∃ tail, t.sh.get j = s.sh.get j ++ tail
      ∧ ((∃ d draws, i = .encByte d draws ∧ t.rej = false ∧ tail.length = 2)
        ∨ ((∀ d draws, i = .encByte d draws → t.rej = true) ∧ tail = [])) := by
  by_cases hi : ∃ d draws, i = .encByte d draws
  · obtain ⟨d, draws, rfl⟩ := hi
    obtain ⟨hrej, hsh⟩ | ⟨hrej, hsh⟩ := execEncByte_sh h
    · exact ⟨_, hsh j, .inl ⟨d, draws, rfl, hrej, rfl⟩⟩
    · exact ⟨[], by simp [hsh], .inr ⟨fun _ _ _ => hrej, rfl⟩⟩
  · have hne : ∀ d draws, i ≠ .encByte d draws := fun d draws he => hi ⟨d, draws, he⟩
    exact ⟨[], by simp [exec_keeps_sh h hne], .inr ⟨fun d draws he => absurd he (hne d draws), rfl⟩⟩

/-- The growth of the output: one byte by an accepted `DEC.WORD` that does not fault, nothing otherwise. -/
theorem exec_appends_to_out {i : Instr} {s t : State} (h : exec i s = .next t) :
    ∃ tail, t.out = s.out ++ tail
      ∧ ((∃ w, i = .decWord w ∧ t.rej = false ∧ t.dec.state ≠ .fault ∧ tail.length = 1)
        ∨ ((∀ w, i = .decWord w → t.rej = true ∨ t.dec.state = .fault) ∧ tail = [])) := by
  by_cases hi : ∃ w, i = .decWord w
  · obtain ⟨w, rfl⟩ := hi
    obtain ⟨hrej, hstate, hout⟩ | ⟨hstop, hout⟩ := execDecWord_out h
    · exact ⟨_, hout, .inl ⟨w, rfl, hrej, hstate, rfl⟩⟩
    · exact ⟨[], by simp [hout], .inr ⟨fun _ _ => hstop, rfl⟩⟩
  · have hne : ∀ w, i ≠ .decWord w := fun w he => hi ⟨w, he⟩
    exact ⟨[], by simp [exec_keeps_out h hne], .inr ⟨fun w he => absurd he (hne w), rfl⟩⟩

/-- Settles O38: the shares grow by `exec_appends_to_sh`, the output by `exec_appends_to_out`. -/
theorem streamsOnlyGrow : Obligations.StreamsOnlyGrow :=
  fun _ _ _ h => ⟨exec_appends_to_sh h, exec_appends_to_out h⟩

end Sys2Proof.Machine

/-! ### The command word

A word decodes to `i` exactly when it carries the code of `i` and the operands of `i` in the fields of its format
(`decode_eq_ok_iff`). A field is the run of bits it covers (`field_eq_iff_sameBits`), and the fields of a format lie side
by side, so two words decode to `i` together exactly when they agree on the bits that its format reads
(`decode_eq_ok_iff_sameBits`). -/

namespace Sys2Proof

/-! #### Runs of bits -/

/-- Bit `r` of a field is bit `lo + r` of the command word (R68). -/
theorem getLsbD_field {n r : Nat} (cmd lo : Nat) (hr : r < n) : (field cmd lo n).getLsbD r = cmd.testBit (lo + r) := by
  simp only [field, BitVec.getLsbD_ofNat, Nat.testBit_shiftRight, hr, decide_true, Bool.true_and]

/-- Bit `r` of a length field is bit `8 + LEN_W·j + r` of the command word (R71). -/
theorem testBit_lenField {lenW r : Nat} (cmd : Nat) (j : Fin 4) (hr : r < lenW) :
    (lenField lenW cmd j).testBit r = cmd.testBit (8 + lenW * j.val + r) := by
  simp only [lenField, Nat.testBit_mod_two_pow, Nat.testBit_shiftRight, hr, decide_true, Bool.true_and]

/-- The words `v` and `w` have the same `n` bits from bit `lo` on. -/
def SameBits (v w lo n : Nat) : Prop := ∀ r < n, v.testBit (lo + r) = w.testBit (lo + r)

section
variable {v w lo : Nat}

/-- A run of bits is two runs side by side. -/
theorem sameBits_add {m n : Nat} : SameBits v w lo (m + n) ↔ SameBits v w lo m ∧ SameBits v w (lo + m) n := by
  constructor
  · intro h
    exact ⟨fun r hr => h r (by omega), fun r hr => by simpa only [Nat.add_assoc] using h (m + r) (by omega)⟩
  · rintro ⟨hm, hn⟩ r hr
    obtain hlt | hge := Nat.lt_or_ge r m
    · exact hm r hlt
    · have hplace : lo + m + (r - m) = lo + r := by omega
      simpa only [hplace] using hn (r - m) (by omega)

/-- A run of bits is runs of one width side by side. -/
theorem sameBits_mul {m n : Nat} : SameBits v w lo (n * m) ↔ ∀ k : Fin m, SameBits v w (lo + n * k.val) n := by
  induction m with
  | zero => exact ⟨fun _ k => k.elim0, fun _ r hr => absurd hr (Nat.not_lt_zero r)⟩
  | succ m ih => simp only [Nat.mul_succ, sameBits_add, ih, Fin.forall_fin_succ', Fin.val_castSucc, Fin.val_last]

/-- Two words hold the same in a field exactly when they agree on its bits (R68). -/
theorem field_eq_iff_sameBits {n : Nat} : field v lo n = field w lo n ↔ SameBits v w lo n := by
  rw [BitVec.eq_of_getLsbD_eq_iff]
  refine forall₂_congr fun r hr => ?_
  rw [getLsbD_field v lo hr, getLsbD_field w lo hr]

/-- Two words hold the same length in a length field exactly when they agree on its `LEN_W` bits (R71). -/
theorem lenField_eq_iff_sameBits {lenW : Nat} {j : Fin 4} :
    lenField lenW v j = lenField lenW w j ↔ SameBits v w (8 + lenW * j.val) lenW := by
  rw [lenField, lenField, ← BitVec.toNat_ofNat, ← BitVec.toNat_ofNat, ← BitVec.toNat_eq]
  exact field_eq_iff_sameBits

/-- Two words hold the same draw pair in a field exactly when they agree on its nine bits, `p` above `e` (R67, R70). -/
theorem drawField_eq_iff_sameBits {k : Fin 8} :
    drawField v k = drawField w k ↔ SameBits v w (12 + 9 * k.val) (4 + 5) := by
  simp only [drawField, DrawPair.mk.injEq, ← BitVec.toNat_eq, field_eq_iff_sameBits, sameBits_add]

end

/-! #### What a word decodes to -/

/-- The word carries the operands of `i` in the fields of its format (R69 to R72). -/
def OperandsAt (lenW cmd : Nat) : Instr → Prop
  | .encByte d draws => field cmd 4 8 = d ∧ ∀ k, drawField cmd k = draws.get k
  | .decStart mask len => field cmd 4 4 = mask ∧ ∀ j, lenField lenW cmd j = len.get j
  | .decWord w => ∀ j, wordField cmd j = w.get j
  | .encNop | .encStart | .encEnd | .encAbort | .decNop | .decAbort => True

/-- A word decodes to `i` exactly when it carries the code and the operands of `i` (R73). -/
theorem decode_eq_ok_iff {lenW cmd : Nat} {i : Instr} :
    decode lenW cmd = .ok i ↔ field cmd 0 4 = opcode i ∧ OperandsAt lenW cmd i := by
  constructor
  · intro h
    unfold decode at h
    split at h <;> cases h <;> rename_i hc <;> refine ⟨BitVec.eq_of_toNat_eq hc, ?_⟩
    case h_3 => exact ⟨rfl, fun k => (Octet.get_ofFn _ k).symm⟩
    case h_7 => exact ⟨rfl, fun j => (Quad.get_ofFn _ j).symm⟩
    case h_8 => exact fun j => (Quad.get_ofFn _ j).symm
    all_goals trivial
  · rintro ⟨hc, ho⟩
    cases i with
    | encByte d draws =>
      obtain ⟨rfl, hdraws⟩ := ho
      have hq : Octet.ofFn (drawField cmd) = draws := Octet.ext_get fun k => by rw [Octet.get_ofFn, hdraws]
      simp [decode, hc, opcode, hq]
    | decStart mask len =>
      obtain ⟨rfl, hlen⟩ := ho
      have hq : Quad.ofFn (lenField lenW cmd) = len := Quad.ext_get fun j => by rw [Quad.get_ofFn, hlen]
      simp [decode, hc, opcode, hq]
    | decWord w =>
      have hq : Quad.ofFn (wordField cmd) = w := Quad.ext_get fun j => by rw [Quad.get_ofFn, ho]
      simp [decode, hc, opcode, hq]
    | encNop | encStart | encEnd | encAbort | decNop | decAbort => simp [decode, hc, opcode]

/-- Once a word decodes to `i`, another word does exactly when it has the same bits where the format of `i` reads. -/
theorem decode_eq_ok_iff_sameBits {lenW v w : Nat} {i : Instr} (h : decode lenW w = .ok i) :
    decode lenW v = .ok i ↔ SameBits v w 0 (usedBits lenW i) := by
  obtain ⟨hc, ho⟩ := decode_eq_ok_iff.mp h
  rw [decode_eq_ok_iff, ← hc, field_eq_iff_sameBits]
  cases i with
  | encByte d draws =>
    obtain ⟨hd, hdraws⟩ := ho
    simp only [OperandsAt, ← hd, ← hdraws, field_eq_iff_sameBits, drawField_eq_iff_sameBits]
    change _ ↔ SameBits v w 0 (4 + (8 + 9 * 8))
    rw [sameBits_add, sameBits_add, sameBits_mul]
  | decStart mask len =>
    obtain ⟨hmask, hlen⟩ := ho
    simp only [OperandsAt, ← hmask, ← hlen, field_eq_iff_sameBits, lenField_eq_iff_sameBits]
    change _ ↔ SameBits v w 0 (8 + 4 * lenW)
    rw [show 8 + 4 * lenW = 4 + (4 + lenW * 4) by omega, sameBits_add, sameBits_add, sameBits_mul]
  | decWord x =>
    simp only [OperandsAt, ← ho _, wordField, field_eq_iff_sameBits]
    change _ ↔ SameBits v w 0 (4 + 16 * 4)
    rw [sameBits_add, sameBits_mul]
  | encNop | encStart | encEnd | encAbort | decNop | decAbort => exact iff_of_eq (and_true _)

/-- The codes of R74 carry no operation. -/
theorem decode_reserved {lenW cmd : Nat} (h : (field cmd 0 4).toNat ∈ [0x5, 0x6, 0x7, 0xB, 0xD, 0xE, 0xF]) :
    decode lenW cmd = .error (.reservedCode (field cmd 0 4)) := by
  simp only [List.mem_cons, List.not_mem_nil, or_false] at h
  obtain h | h | h | h | h | h | h := h <;> simp only [decode, h]

/-- No code but those of R74 carries no operation. -/
theorem reserved_of_decode_error {lenW cmd : Nat} {e : DecodeError} (h : decode lenW cmd = .error e) :
    (field cmd 0 4).toNat ∈ [0x5, 0x6, 0x7, 0xB, 0xD, 0xE, 0xF] := by
  have hlt := (field cmd 0 4).isLt
  unfold decode at h
  split at h <;> cases h
  simp only [List.mem_cons, List.not_mem_nil, or_false, imp_false] at *
  omega

/-! #### The encoded word -/

/-- The encoded word carries the code of its operation: `Laws.OpcodeField` for every constructor. -/
theorem field_encode_opcode (lenW : Nat) (i : Instr) : field (encode lenW i) 0 4 = opcode i :=
  Laws.OpcodeField.of_sum _ _

/-- Two words side by side as numbers. -/
theorem toNat_append_eq_add {a b : Nat} (x : BitVec a) (y : BitVec b) :
    (x ++ y).toNat = y.toNat + 2 ^ b * x.toNat := by
  rw [BitVec.toNat_append, ← Nat.shiftLeft_add_eq_or_of_lt y.isLt, Nat.shiftLeft_eq, Nat.mul_comm, Nat.add_comm]

/-- The command word of format S (R71), as wide as its five operands and its code. -/
def startWord (lenW : Nat) (mask : BitVec 4) (len : Quad Nat) : BitVec (lenW + lenW + lenW + lenW + 4 + 4) :=
  BitVec.ofNat lenW len.l3 ++ BitVec.ofNat lenW len.l2 ++ BitVec.ofNat lenW len.l1 ++ BitVec.ofNat lenW len.l0
    ++ mask ++ 0x9#4

theorem encode_encByte (lenW : Nat) (d : Byte) (draws : Octet DrawPair) :
    encode lenW (.encByte d draws) = (byteOperands d draws ++ 0x2#4).toNat :=
  (append_toNat _ _).symm

theorem encode_decWord (lenW : Nat) (w : Quad ShareWord) :
    encode lenW (.decWord w) = (wordOperands w ++ 0xA#4).toNat :=
  (append_toNat _ _).symm

theorem encode_decStart {lenW : Nat} {mask : BitVec 4} {len : Quad Nat} (hlen : ∀ j, len.get j < 2 ^ lenW) :
    encode lenW (.decStart mask len) = (startWord lenW mask len).toNat := by
  have hfit (j : Fin 4) : (BitVec.ofNat lenW (len.get j)).toNat = len.get j := Nat.mod_eq_of_lt (hlen j)
  have h0 : (BitVec.ofNat lenW len.l0).toNat = len.l0 := hfit 0
  have h1 : (BitVec.ofNat lenW len.l1).toNat = len.l1 := hfit 1
  have h2 : (BitVec.ofNat lenW len.l2).toNat = len.l2 := hfit 2
  have h3 : (BitVec.ofNat lenW len.l3).toNat = len.l3 := hfit 3
  simp only [startWord, toNat_append_eq_add, h0, h1, h2, h3]
  exact Nat.add_comm _ _

/-- The draws of a well-formed `ENC.BYTE` fit their fields (R67). -/
theorem draws_fit_of_wellFormed {lenW : Nat} {d : Byte} {draws : Octet DrawPair}
    (h : (Instr.encByte d draws).wellFormed lenW = true) (k : Fin 8) : (draws.get k).e < 16 ∧ (draws.get k).p < 32 := by
  have hfits : (draws.get k).fits = true := List.all_eq_true.mp h _ (Octet.mem_toList.mpr ⟨k, rfl⟩)
  simpa [DrawPair.fits] using hfits

/-- A slice of all the bits of a word is the word. -/
theorem extract_whole {n : Nat} (x : BitVec n) (lo : Nat) (h : lo = 0) : x.extractLsb' lo n = x := by
  rw [h, BitVec.extractLsb'_eq_self]

/-- Each draw pair stands at its nine bits of the encoded word (R70). -/
theorem extract_byteOperands_draw (d : Byte) (draws : Octet DrawPair) (k : Fin 8) :
    (byteOperands d draws ++ 0x2#4).extractLsb' (12 + 9 * k.val) 9 = drawBits (draws.get k) := by
  fin_cases k <;> simp (disch := omega) only [byteOperands, extract_append_high, extract_append_low, extract_whole]
    <;> rfl

/-- The two draws of a draw pair that fits its field are the two parts of its nine bits (R67). -/
theorem extract_drawBits {dp : DrawPair} (he : dp.e < 16) (hp : dp.p < 32) :
    ((drawBits dp).extractLsb' 0 4).toNat = dp.e ∧ ((drawBits dp).extractLsb' 4 5).toNat = dp.p := by
  constructor
  · rw [drawBits, BitVec.extractLsb'_append_eq_right]
    exact Nat.mod_eq_of_lt he
  · rw [drawBits, BitVec.extractLsb'_append_eq_left]
    exact Nat.mod_eq_of_lt hp

/-- A slice of a slice. -/
theorem extract_extract {a : Nat} (x : BitVec a) {lo n lo' n' : Nat} (h : lo' + n' ≤ n) :
    (x.extractLsb' lo n).extractLsb' lo' n' = x.extractLsb' (lo + lo') n' := by
  apply BitVec.eq_of_getLsbD_eq
  intro i hi
  have hin : lo' + i < n := by omega
  simp only [BitVec.getLsbD_extractLsb', hi, hin, decide_true, Bool.true_and, Nat.add_assoc]

/-- The encoded `ENC.BYTE` carries its operands (R70). -/
theorem operandsAt_encode_encByte {lenW : Nat} {d : Byte} {draws : Octet DrawPair}
    (h : (Instr.encByte d draws).wellFormed lenW = true) :
    OperandsAt lenW (encode lenW (.encByte d draws)) (.encByte d draws) := by
  rw [encode_encByte]
  constructor
  · rw [field_toNat]
    simp (disch := omega) only [byteOperands, extract_append_high, extract_append_low, extract_whole]
  · intro k
    obtain ⟨he, hp⟩ := draws_fit_of_wellFormed h k
    obtain ⟨hge, hgp⟩ := extract_drawBits he hp
    rw [← extract_byteOperands_draw d, extract_extract _ (by decide)] at hge hgp
    exact congrArg₂ DrawPair.mk hge hgp

/-- The encoded `DEC.WORD` carries its operands (R72). -/
theorem operandsAt_encode_decWord (lenW : Nat) (w : Quad ShareWord) :
    OperandsAt lenW (encode lenW (.decWord w)) (.decWord w) := by
  rw [encode_decWord]
  intro j
  rw [wordField, field_toNat]
  fin_cases j <;> simp (disch := omega) only [wordOperands, extract_append_high, extract_append_low, extract_whole]
    <;> rfl

/-- Each length stands at its `LEN_W` bits of the command word (R71). -/
theorem extract_startWord_len (lenW : Nat) (mask : BitVec 4) (len : Quad Nat) (j : Fin 4) :
    (startWord lenW mask len).extractLsb' (8 + lenW * j.val) lenW = BitVec.ofNat lenW (len.get j) := by
  fin_cases j <;> simp (disch := omega) only [startWord, extract_append_high, extract_append_low, extract_whole]
    <;> rfl

/-- The encoded `DEC.START` carries its operands (R71). -/
theorem operandsAt_encode_decStart {lenW : Nat} {mask : BitVec 4} {len : Quad Nat}
    (h : (Instr.decStart mask len).wellFormed lenW = true) :
    OperandsAt lenW (encode lenW (.decStart mask len)) (.decStart mask len) := by
  have hlen := len_lt_of_wellFormed h
  rw [encode_decStart hlen]
  constructor
  · rw [field_toNat]
    simp (disch := omega) only [startWord, extract_append_high, extract_append_low, extract_whole]
  · intro j
    calc lenField lenW (startWord lenW mask len).toNat j
        = ((startWord lenW mask len).extractLsb' (8 + lenW * j.val) lenW).toNat := rfl
      _ = len.get j := by rw [extract_startWord_len]; exact Nat.mod_eq_of_lt (hlen j)

/-- The encoded word of a well-formed instruction carries its operands. -/
theorem operandsAt_encode {lenW : Nat} {i : Instr} (h : i.wellFormed lenW = true) :
    OperandsAt lenW (encode lenW i) i := by
  cases i with
  | encByte d draws => exact operandsAt_encode_encByte h
  | decStart mask len => exact operandsAt_encode_decStart h
  | decWord w => exact operandsAt_encode_decWord lenW w
  | encNop | encStart | encEnd | encAbort | decNop | decAbort => trivial

/-- The encoded word of a well-formed instruction decodes to it. -/
theorem decode_encode {lenW : Nat} {i : Instr} (h : i.wellFormed lenW = true) : decode lenW (encode lenW i) = .ok i :=
  decode_eq_ok_iff.mpr ⟨field_encode_opcode lenW i, operandsAt_encode h⟩

/-- The encoded word of a well-formed instruction has no bit above those its format reads. -/
theorem encode_lt {lenW : Nat} {i : Instr} (h : i.wellFormed lenW = true) : encode lenW i < 2 ^ usedBits lenW i := by
  cases i with
  | encByte d draws => rw [encode_encByte]; exact BitVec.isLt _
  | decStart mask len =>
    rw [encode_decStart (len_lt_of_wellFormed h)]
    have hwidth : usedBits lenW (.decStart mask len) = lenW + lenW + lenW + lenW + 4 + 4 := by
      simp only [usedBits, Config.cmdW]
      omega
    rw [hwidth]
    exact BitVec.isLt _
  | decWord w => rw [encode_decWord]; exact BitVec.isLt _
  | encNop | encStart | encEnd | encAbort | decNop | decAbort => simp [encode, operandBits, opcode, usedBits]

/-- From a `LEN_W` of 19 on, `CMD_W` bits hold every format (log entry 14). -/
theorem usedBits_le_cmdW {lenW : Nat} (h : 19 ≤ lenW) (i : Instr) : usedBits lenW i ≤ 8 + 4 * lenW := by
  cases i <;> simp only [usedBits, Config.cmdW] <;> omega

/-! #### The statements of the encoding -/

/-- Settles O1: the encoded word carries its code and its operands, so `decode_eq_ok_iff` gives the instruction back. -/
theorem decodeOfEncode : Obligations.DecodeOfEncode := by
  intro lenW i h
  refine ⟨decode_encode h, encode_lt h, ?_, fun hlenW => usedBits_le_cmdW hlenW i⟩
  rintro mask len rfl
  rfl

/-- Settles O2: the encoded word of what `w` decodes to decodes to the same, so it has the bits of `w` that are read. -/
theorem encodeOfDecode : Obligations.EncodeOfDecode := by
  intro lenW w i h
  have hwf := decode_wellFormed h
  refine ⟨hwf, fun n hn => ?_⟩
  simpa only [Nat.zero_add] using (decode_eq_ok_iff_sameBits h).mp (decode_encode hwf) n hn

/-- Settles O3: `decode_eq_ok_iff_sameBits`, from the bits to the instruction. -/
theorem ignoredBitsAreNotRead : Obligations.IgnoredBitsAreNotRead := by
  intro lenW w w' i h hbits
  exact (decode_eq_ok_iff_sameBits h).mpr fun n hn => by simpa only [Nat.zero_add] using hbits n hn

/-- Settles O4: the code is the first part of `decode_eq_ok_iff`; the codes without an operation are those of R74. -/
theorem opcodeMap : Obligations.OpcodeMap := by
  intro lenW w
  refine ⟨fun i h => (decode_eq_ok_iff.mp h).left, ?_⟩
  exact ⟨fun ⟨_, h⟩ => reserved_of_decode_error h, fun h => ⟨_, decode_reserved h⟩⟩

/-- The operations of format N carry no operand (R69). -/
theorem operandsAt_formatN {lenW cmd : Nat} {i : Instr}
    (h : i ∈ [Instr.encNop, .encStart, .encEnd, .encAbort, .decNop, .decAbort]) : OperandsAt lenW cmd i := by
  simp only [List.mem_cons, List.not_mem_nil, or_false] at h
  obtain rfl | rfl | rfl | rfl | rfl | rfl := h <;> trivial

/-- Settles O5: `decode_eq_ok_iff` names the fields of each format, and `getLsbD_field` their bits. -/
theorem formatFields : Obligations.FormatFields := by
  intro lenW cmd
  refine ⟨fun i hi hc => decode_eq_ok_iff.mpr ⟨hc, operandsAt_formatN hi⟩, ?formatB, ?formatS, ?formatW⟩
  case formatB =>
    intro hc
    refine ⟨field cmd 4 8, Octet.ofFn (drawField cmd), ?_, fun n hn => getLsbD_field cmd 4 hn, fun k => ?_⟩
    · exact decode_eq_ok_iff.mpr ⟨hc, rfl, fun k => (Octet.get_ofFn _ k).symm⟩
    · rw [Octet.get_ofFn]
      refine ⟨BitVec.isLt _, BitVec.isLt _, fun n hn => getLsbD_field cmd _ hn, fun n hn => ?_⟩
      rw [show 16 + 9 * k.val = 12 + 9 * k.val + 4 by omega]
      exact getLsbD_field cmd _ hn
  case formatS =>
    intro hc
    refine ⟨field cmd 4 4, Quad.ofFn (lenField lenW cmd), ?_, fun n hn => getLsbD_field cmd 4 hn, fun j => ?_⟩
    · exact decode_eq_ok_iff.mpr ⟨hc, rfl, fun j => (Quad.get_ofFn _ j).symm⟩
    · rw [Quad.get_ofFn]
      exact ⟨lenField_lt lenW cmd j, fun n hn => testBit_lenField cmd j hn⟩
  case formatW =>
    intro hc
    refine ⟨Quad.ofFn (wordField cmd), decode_eq_ok_iff.mpr ⟨hc, fun j => (Quad.get_ofFn _ j).symm⟩, fun j n hn => ?_⟩
    rw [Quad.get_ofFn]
    exact getLsbD_field cmd _ hn

end Sys2Proof

/-! ### Reserved codes, lane masks and disabled lanes -/

namespace Sys2Proof.Machine

/-- Settles O8: the reserved code decodes to no operation, and `step` rejects the command. -/
theorem reservedCodesAreRejected : Obligations.ReservedCodesAreRejected := by
  intro s cmd rest hport hcode
  simp only [step, nextEvent_cons hport, decode_reserved hcode]
  rfl

/-! #### Lane masks -/

/-- The masks with three or four lanes (R81). -/
theorem popcount_lt_three_iff (mask : BitVec 4) :
    popcount mask < 3 ↔ mask ∉ [0b0111, 0b1011, 0b1101, 0b1110, 0b1111] := by
  revert mask
  decide

/-- The lane count alone decides whether `DEC.START` ends with `INSUFFICIENT_SHARES` recorded (R116, R156). -/
theorem execDecStart_insufficientShares_iff {mask : BitVec 4} {len : Quad Nat} {s t : State}
    (h : execDecStart mask len s = .next t) : t.dec.err.ecode = .insufficientShares ↔ popcount mask < 3 := by
  obtain ⟨hp, hf⟩ | ⟨hp, j, -, hf⟩ | ⟨hp, -, -, hf⟩ | ⟨hp, -, -, hf⟩ := startFault_cases s.lenW mask len
    <;> simp only [execDecStart, hf, Host.Outcome.next.injEq] at h <;> subst h
  · exact ⟨fun _ => hp, fun _ => rfl⟩
  all_goals exact iff_of_false (fun he => nomatch he) (by omega)

/-- Settles O22: `DEC.START` is never rejected and latches its mask, and the masks with fewer than three lanes are those
not listed. -/
theorem laneMasks : Obligations.LaneMasks := by
  intro s mask len
  obtain ⟨t, h⟩ := exec_total (.decStart mask len) s
  have hinsufficient := (execDecStart_insufficientShares_iff h).trans (popcount_lt_three_iff mask)
  refine ⟨t, h, ?_⟩
  obtain ⟨e, -, rfl⟩ | ⟨-, rfl⟩ := execDecStart_cases h <;> exact ⟨rfl, rfl, hinsufficient⟩

/-! #### Disabled lanes -/

section
variable {mask : BitVec 4} {len len' : Quad Nat}

/-- With a lane enabled, lengths that agree on the enabled lanes agree on the reference lane. -/
theorem refLane_len_congr (hp : 3 ≤ popcount mask) (h : ∀ j : Fin 4, mask.getLsbD j.val = true → len.get j = len'.get j) :
    len.get (refLane mask) = len'.get (refLane mask) :=
  h _ (refLane_enabled (by omega))

/-- The lowest differing lane is looked for among the enabled lanes only. -/
theorem differingLane_congr (hp : 3 ≤ popcount mask)
    (h : ∀ j : Fin 4, mask.getLsbD j.val = true → len.get j = len'.get j) :
    differingLane mask len = differingLane mask len' := by
  refine List.find?_congr fun j hj => ?_
  rw [refLane_len_congr hp h, h j ((mem_enabledLanes mask j).mp hj)]

/-- The checks of `DEC.START` look at the lengths of the enabled lanes only. -/
theorem startFault_congr (lenW : Nat) (h : ∀ j : Fin 4, mask.getLsbD j.val = true → len.get j = len'.get j) :
    startFault lenW mask len = startFault lenW mask len' := by
  obtain hp | hp := Nat.lt_or_ge (popcount mask) 3
  · rw [startFault, startFault, if_pos hp, if_pos hp]
  · have hd := differingLane_congr hp h
    have hr := refLane_len_congr hp h
    rw [startFault, startFault, hd, hr]
    cases hj : differingLane mask len' with
    | none => rfl
    | some j =>
      obtain ⟨hon, -⟩ := differingLane_some hj
      simp only [h j hon]

/-- With no fault, three lanes or more are enabled. -/
theorem three_le_popcount_of_startFault {lenW : Nat} (h : startFault lenW mask len = none) : 3 ≤ popcount mask := by
  obtain ⟨-, hf⟩ | ⟨hp, -⟩ | ⟨hp, -⟩ | ⟨hp, -⟩ := startFault_cases lenW mask len
  · rw [h] at hf
    cases hf
  all_goals exact hp

end

/-- Settles O23: the checks and, where they pass, the reference length are the same for both. -/
theorem decStartIgnoresDisabledLengths : Obligations.DecStartIgnoresDisabledLengths := by
  intro s mask len len' h
  have hfault := startFault_congr s.lenW h
  simp only [exec, execDecStart, hfault]
  cases hf : startFault s.lenW mask len' with
  | some e => rfl
  | none => simp only [refLane_len_congr (three_le_popcount_of_startFault hf) h]

/-- A column is made of the words of the enabled lanes only (R117). -/
theorem decColumn_congr {mask : BitVec 4} {w w' : Quad ShareWord}
    (h : ∀ j : Fin 4, mask.getLsbD j.val = true → w.get j = w'.get j) : decColumn mask w = decColumn mask w' := by
  funext k
  refine List.map_congr_left fun j hj => ?_
  rw [h j ((mem_enabledLanes mask j).mp hj)]

/-- Settles O27: both words show the same columns, and `DEC.WORD` looks at nothing else of them. -/
theorem decWordIgnoresDisabledLanes : Obligations.DecWordIgnoresDisabledLanes := by
  intro s w w' h
  have hcolumn := decColumn_congr h
  have hvote : wordVote s.dec.n s.dec.mask w = wordVote s.dec.n s.dec.mask w' := by
    funext k
    rw [wordVote, wordVote, hcolumn]
  simp only [exec, execDecWord, firstCorrupt, wordByte, hcolumn, hvote]

/-! #### The tables -/

/-- Settles O42, by evaluating the eleven entries. -/
theorem catalogEntries : Obligations.CatalogEntries := by
  refine ⟨?zeroFamily, ?identical, ?distinct⟩
  case zeroFamily => decide
  case identical => decide
  case distinct => decide

/-- Settles O44, by evaluating the twenty-four rows. -/
theorem permTableIsClosedForm : Obligations.PermTableIsClosedForm := by
  unfold Obligations.PermTableIsClosedForm
  decide

/-- The draws that select an all-identical entry are `W_IDENT` in a row (R64). -/
theorem oIdx_eq_identical_iff {w : Weights} {e o : Nat} (ho : o < 4) :
    oIdx w e = o ↔ o * w.wIdent ≤ e ∧ e < (o + 1) * w.wIdent := by
  unfold oIdx
  split
  case isTrue h => rw [Nat.div_eq_iff (by omega), Nat.succ_mul]; omega
  case isFalse h =>
    have : (o + 1) * w.wIdent ≤ 4 * w.wIdent := Nat.mul_le_mul_right _ ho
    omega

/-- The draws that select the all-distinct entry are those above (R64). -/
theorem oIdx_eq_distinct_iff {w : Weights} {e : Nat} : oIdx w e = 4 ↔ 4 * w.wIdent ≤ e := by
  unfold oIdx
  split
  case isTrue h =>
    have : e / w.wIdent < 4 := Nat.div_lt_of_lt_mul (by rwa [Nat.mul_comm])
    omega
  case isFalse h => omega

/-- How many draws below `NO` select the entry `o`, when they are those from `lo` to below `hi`. -/
theorem length_filter_oIdx {w : Weights} {o lo hi : Nat} (hhi : hi ≤ w.no)
    (h : ∀ e < w.no, oIdx w e = o ↔ lo ≤ e ∧ e < hi) :
    ((List.range w.no).filter fun e => oIdx w e == o).length = hi - lo := by
  have hset : (Finset.range w.no).filter (fun e => oIdx w e = o) = Finset.Ico lo hi := by
    ext e
    simp only [Finset.mem_filter, Finset.mem_range, Finset.mem_Ico]
    exact ⟨fun ⟨he, ho⟩ => (h e he).mp ho, fun he => ⟨by omega, (h e (by omega)).mpr he⟩⟩
  rw [← Nat.card_Ico, ← hset]
  rfl

/-- Settles O43: the draws that select an entry are consecutive. -/
theorem drawsGiveEntriesTheirWeight : Obligations.DrawsGiveEntriesTheirWeight := by
  intro w
  constructor
  · intro o ho
    have hhi : (o + 1) * w.wIdent ≤ w.no :=
      (Nat.mul_le_mul_right w.wIdent ho).trans (Nat.le_add_right _ _)
    rw [length_filter_oIdx hhi fun e _ => oIdx_eq_identical_iff ho, ← Nat.sub_mul, Nat.add_sub_cancel_left, Nat.one_mul]
  · rw [length_filter_oIdx le_rfl fun e he => oIdx_eq_distinct_iff.trans (iff_self_and.mpr fun _ => he)]
    exact Nat.add_sub_cancel_left _ _

end Sys2Proof.Machine

/-! ### The encoder's operations -/

namespace Sys2Proof.Machine

/-! #### The operations that take no operand -/

/-- Settles O14: the code carries no operand, and `ENC.START` writes the same registers in every state. -/
theorem encStartOpens : Obligations.EncStartOpens :=
  ⟨fun _ _ hc => decode_eq_ok_iff.mpr ⟨hc, trivial⟩, fun _ => rfl⟩

/-- Settles O17: the code carries no operand, and `ENC.ABORT` gives every encoder register its reset value. -/
theorem encAbortClears : Obligations.EncAbortClears :=
  ⟨fun _ _ hc => decode_eq_ok_iff.mpr ⟨hc, trivial⟩, fun _ => rfl⟩

/-- `ENC.END` in `RUN` (R96). -/
theorem exec_encEnd_of_run {s : State} (hrun : s.enc.state = .run) :
    exec .encEnd s = .next (accept { s with enc := { s.enc with state := .done } }) :=
  if_pos hrun

/-- Settles O16: the two branches of `ENC.END`. -/
theorem encEndCloses : Obligations.EncEndCloses :=
  ⟨fun _ _ hc => decode_eq_ok_iff.mpr ⟨hc, trivial⟩, fun _ => ⟨exec_encEnd_of_run, fun hno => if_neg hno⟩⟩

/-! #### `ENC.BYTE` -/

/-- The ranges of the draws in the words of the table of R141. -/
theorem drawInRange_iff_not_drawOutOfRange {w : Weights} {b : Bool} {dp : DrawPair} :
    drawInRange w b dp = true ↔ ¬ drawOutOfRange w b dp := by
  rw [drawInRange_iff]
  cases b <;> simp

/-- Every draw of a byte is in range exactly when none is out of range. -/
theorem drawsInRange_iff_forall_not_drawOutOfRange {w : Weights} {d : Byte} {draws : Octet DrawPair} :
    drawsInRange w d draws = true ↔ ∀ k, ¬ drawOutOfRange w (byteBit d k) (draws.get k) := by
  simp only [drawsInRange_iff, drawInRange_iff_not_drawOutOfRange]

/-- `ENC.BYTE` in `RUN` with every draw in range (R95). -/
theorem exec_encByte_of_run {s : State} {d : Byte} {draws : Octet DrawPair} (hrun : s.enc.state = .run)
    (hdraws : ∀ k, ¬ drawOutOfRange s.weights (byteBit d k) (draws.get k)) :
    exec (.encByte d draws) s
      = .next (accept (pushShares (encWords s.weights d draws)
          { s with enc := { s.enc with count := nextCount s.lenW s.enc.count, dp := EncDatapath.zero } })) :=
  if_pos ⟨hrun, drawsInRange_iff_forall_not_drawOutOfRange.mpr hdraws⟩

/-- `ENC.BYTE` outside `RUN`, or with a draw out of range (R95, R141). -/
theorem exec_encByte_of_rejected {s : State} {d : Byte} {draws : Octet DrawPair}
    (h : s.enc.state ≠ .run ∨ ∃ k, drawOutOfRange s.weights (byteBit d k) (draws.get k)) :
    exec (.encByte d draws) s = .next (reject s) := by
  refine if_neg fun ⟨hrun, hdraws⟩ => ?_
  obtain hno | ⟨k, hk⟩ := h
  · exact hno hrun
  · exact drawsInRange_iff_forall_not_drawOutOfRange.mp hdraws k hk

/-- The symbol of position `k` in the word of share `j` (R93, R95). -/
@[simp] theorem unpackSym_encWords (w : Weights) (d : Byte) (draws : Octet DrawPair) (j : Fin 4) (k : Fin 8) :
    unpackSym ((encWords w d draws).get j) k = (encBit w (byteBit d k) (draws.get k)).get j := by
  rw [encWords, Quad.get_ofFn, unpackSym_packWord]
  rfl

/-- Settles O15: the words pushed are `encWords`, whose symbols are those of the eight columns. -/
theorem encByteEncodes : Obligations.EncByteEncodes := by
  refine ⟨fun lenW cmd hc => ?_, fun s d draws => ⟨fun hrun hdraws => ?_, exec_encByte_of_rejected⟩⟩
  · exact ⟨field cmd 4 8, Octet.ofFn (drawField cmd),
      decode_eq_ok_iff.mpr ⟨hc, rfl, fun k => (Octet.get_ofFn _ k).symm⟩⟩
  · exact ⟨encWords s.weights d draws, unpackSym_encWords s.weights d draws, exec_encByte_of_run hrun hdraws⟩

/-! #### The encoder has no fault -/

/-- No command takes `ENC_STATE` to `FAULT` (R11, R102): those of the encoder write `RUN`, `DONE` or `IDLE` there or
keep what it holds, and those of the decoder keep it. -/
theorem exec_keeps_enc_state_ne_fault {i : Instr} {s t : State} (h : exec i s = .next t)
    (hs : s.enc.state ≠ .fault) : t.enc.state ≠ .fault := by
  cases hi : isEnc i with
  | false =>
    obtain ⟨henc, -⟩ := exec_dec_frame hi h
    rwa [henc]
  | true =>
    obtain rfl | rfl | ⟨d, draws, rfl⟩ | rfl | rfl := (isEnc_eq_true_iff i).mp hi
    · cases h
      exact hs
    · cases h
      exact fun hf => nomatch hf
    · rwa [execEncByte_keeps_state h]
    · obtain ⟨-, rfl⟩ | ⟨-, rfl⟩ := execEncEnd_cases h
      · exact fun hf => nomatch hf
      · exact hs
    · cases h
      exact fun hf => nomatch hf

/-- Settles O35: a step runs a command, resets the encoder to `IDLE` or keeps `ENC_STATE`; and an encoder command keeps
the decoder, its error registers among the rest. -/
theorem encoderCannotFault : Obligations.EncoderCannotFault := by
  refine ⟨fun s t hs h => ?_, fun i s t hi h => ?_⟩
  · obtain ⟨-, rfl⟩ | ⟨rest, cmd, i, -, -, he⟩ | ⟨rest, cmd, e, -, -, rfl⟩ | ⟨rest, -, rfl⟩ | ⟨rest, -, rfl⟩
      | ⟨rest, -, rfl⟩ := step_cases h
    case inr.inl => exact exec_keeps_enc_state_ne_fault (s := { s with port := rest }) he hs
    case inr.inr.inr.inl => exact fun hf => nomatch hf
    all_goals exact hs
  · obtain ⟨hdec, -⟩ := exec_enc_frame hi h
    rw [hdec]

/-! ### The permutation network -/

/-- A quad is its four elements in place order. -/
theorem toList_eq_map_get {α : Type} (q : Quad α) : q.toList = allLanes.map q.get := rfl

/-- Each row of `PERM` names every place once (R66). -/
theorem perm_toList_perm_allLanes {p : Nat} (hp : p < 24) : (perm p).toList.Perm allLanes := by
  revert p
  decide

/-- The permuted symbols are those of the entry at the places that the row names (R91). -/
theorem permute_toList (t : Quad Symbol) (p : Nat) : (permute t p).toList = (perm p).toList.map t.get := rfl

theorem permute_toList_perm (t : Quad Symbol) {p : Nat} (hp : p < 24) : (permute t p).toList.Perm t.toList := by
  rw [permute_toList, toList_eq_map_get]
  exact (perm_toList_perm_allLanes hp).map t.get

/-- The count of equal pairs does not depend on the order of the symbols (R111). -/
theorem same_eq_of_perm {c c' : List Symbol} (h : c.Perm c') : same c = same c' := by
  induction h with
  | nil => rfl
  | cons x h ih => rw [same, same, ih, (h.filter _).length_eq]
  | swap x y l =>
    obtain rfl | hne := eq_or_ne x y
    · rfl
    · simp only [same, List.filter_cons, beq_iff_eq, hne, hne.symm, if_false]
      omega
  | trans _ _ ih ih' => exact ih.trans ih'

/-- The permutation network keeps the count of equal pairs (R91, R111). -/
theorem same_permute (t : Quad Symbol) {p : Nat} (hp : p < 24) : same (permute t p).toList = same t.toList :=
  same_eq_of_perm (permute_toList_perm t hp)

/-- Settles O46: each row of `PERM` names every place once. -/
theorem permuteKeepsTheSymbols : Obligations.PermuteKeepsTheSymbols :=
  fun t _ hp => ⟨permute_toList_perm t hp, same_permute t hp⟩

end Sys2Proof.Machine

/-! ### Counting draw pairs

A draw pair selects an entry and a row of `PERM`, so the draw pairs that give a column with a property are counted entry by
entry: `rowCount` counts the rows, and the entries of the one family come `W_IDENT` and `W_DIST` times each. -/

namespace Sys2Proof.Machine

/-! #### Entry by entry -/

/-- How many rows of `PERM` give a column with the property `P` from the entry `t`. -/
def rowCount (t : Quad Symbol) (P : Quad Symbol → Bool) : Nat := (List.range 24).countP fun p => P (permute t p)

/-- How many draw pairs in range give a column with the property `P`. -/
def drawCount (w : Weights) (b : Bool) (P : Quad Symbol → Bool) : Nat :=
  (drawPairs w b).countP fun dp => P (encBit w b dp)

/-- The number of draws is the range of `e` times that of `p` (R99). -/
theorem length_drawPairs (w : Weights) (b : Bool) : (drawPairs w b).length = (if b then w.no else 6) * 24 := by
  simp [drawPairs, List.length_flatMap]

/-- Draw pairs are counted entry draw by entry draw. -/
theorem drawCount_eq_sum (w : Weights) (b : Bool) (P : Quad Symbol → Bool) :
    drawCount w b P = ∑ e ∈ Finset.range (if b then w.no else 6), rowCount (mapBit w b e) P := by
  rw [drawCount, drawPairs, List.countP_flatMap]
  simp only [Function.comp_def, List.countP_map]
  rfl

/-- A zero bit draws each entry of `ZCAT` once (R64). -/
theorem drawCount_zero (w : Weights) (P : Quad Symbol → Bool) :
    drawCount w false P = ∑ e ∈ Finset.range 6, rowCount (zcat e) P :=
  drawCount_eq_sum w false P

/-- The entries of `OCAT` are five. -/
theorem oIdx_lt_five (w : Weights) (e : Nat) : oIdx w e < 5 := by
  unfold oIdx
  split
  case isTrue h => exact Nat.lt_succ_of_lt (Nat.div_lt_of_lt_mul (by rwa [Nat.mul_comm]))
  case isFalse => decide

/-- A one bit draws each all-identical entry `W_IDENT` times and the all-distinct entry `W_DIST` times (R63, R64). -/
theorem drawCount_one (w : Weights) (P : Quad Symbol → Bool) :
    drawCount w true P
      = w.wIdent * ∑ o ∈ Finset.range 4, rowCount (ocat o) P + w.wDist * rowCount (ocat 4) P := by
  obtain ⟨hident, hdist⟩ := drawsGiveEntriesTheirWeight w
  have hmaps : ∀ e ∈ Finset.range w.no, oIdx w e ∈ Finset.range 5 := fun e _ => Finset.mem_range.mpr (oIdx_lt_five w e)
  have hcard (o : Nat) : ((Finset.range w.no).filter fun e => oIdx w e = o).card
      = ((List.range w.no).filter fun e => oIdx w e == o).length := rfl
  calc drawCount w true P
      = ∑ e ∈ Finset.range w.no, rowCount (ocat (oIdx w e)) P := drawCount_eq_sum w true P
    _ = ∑ o ∈ Finset.range 5, ((Finset.range w.no).filter fun e => oIdx w e = o).card * rowCount (ocat o) P := by
      rw [← Finset.sum_fiberwise_of_maps_to' hmaps fun o => rowCount (ocat o) P]
      simp only [Finset.sum_const, smul_eq_mul]
    _ = ∑ o ∈ Finset.range 4, w.wIdent * rowCount (ocat o) P + w.wDist * rowCount (ocat 4) P := by
      rw [Finset.sum_range_succ, hcard 4, hdist]
      congr 1
      exact Finset.sum_congr rfl fun o ho => by rw [hcard, hident o (Finset.mem_range.mp ho)]
    _ = _ := by rw [Finset.mul_sum]

/-! #### Whole columns -/

/-- An entry gives no column with another count of equal pairs. -/
theorem rowCount_eq_zero {t c : Quad Symbol} (h : same c.toList ≠ same t.toList) : rowCount t (· == c) = 0 := by
  refine List.countP_eq_zero.mpr fun p hp hc => h ?_
  rw [← eq_of_beq hc, same_permute t (List.mem_range.mp hp)]

/-- A two-and-two column comes from one zero entry, by the four rows that keep its pairs of equal symbols together. -/
theorem sum_rowCount_zcat (c : Quad Symbol) :
    ∑ e ∈ Finset.range 6, rowCount (zcat e) (· == c) = if same c.toList = 2 then 4 else 0 := by
  obtain ⟨hzero, -⟩ := catalogEntries
  split
  case isTrue h =>
    obtain ⟨x, y, z, u⟩ := c
    revert x y z u
    decide
  case isFalse h =>
    refine Finset.sum_eq_zero fun e he => rowCount_eq_zero ?_
    obtain ⟨-, -, -, hsame⟩ := hzero e (Finset.mem_range.mp he)
    rwa [hsame]

/-- An all-identical column comes from its own entry, by every row. -/
theorem sum_rowCount_ocat (c : Quad Symbol) :
    ∑ o ∈ Finset.range 4, rowCount (ocat o) (· == c) = if same c.toList = 6 then 24 else 0 := by
  obtain ⟨-, hident, -⟩ := catalogEntries
  split
  case isTrue h =>
    obtain ⟨x, y, z, u⟩ := c
    revert x y z u
    decide
  case isFalse h =>
    refine Finset.sum_eq_zero fun o ho => rowCount_eq_zero ?_
    obtain ⟨-, hsame⟩ := hident o (Finset.mem_range.mp ho)
    rwa [hsame]

/-- An all-distinct column comes from the all-distinct entry by one row. -/
theorem rowCount_ocat_four (c : Quad Symbol) :
    rowCount (ocat 4) (· == c) = if same c.toList = 0 then 1 else 0 := by
  obtain ⟨-, -, -, hsame⟩ := catalogEntries
  split
  case isTrue h =>
    obtain ⟨x, y, z, u⟩ := c
    revert x y z u
    decide
  case isFalse h => exact rowCount_eq_zero (by rwa [hsame])

theorem columnCount_eq_drawCount (w : Weights) (b : Bool) (c : Quad Symbol) :
    columnCount w b c = drawCount w b (· == c) :=
  List.countP_eq_length_filter.symm

/-- Settles O53: the columns are counted entry by entry, and no column has two of the counts 0, 2 and 6. -/
theorem emittedColumns : Obligations.EmittedColumns := by
  intro w c
  rw [columnCount_eq_drawCount, columnCount_eq_drawCount, drawCount_zero, drawCount_one, sum_rowCount_zcat,
    sum_rowCount_ocat, rowCount_ocat_four]
  refine ⟨rfl, ?_⟩
  split
  case isTrue h6 => simp [h6, Nat.mul_comm]
  case isFalse => simp

/-! #### One share -/

/-- The rows of `PERM` in order are the table. -/
theorem map_perm_range : (List.range 24).map perm = permRom := by decide

/-- The rows are counted in the table (R66, R91). -/
theorem rowCount_eq_countP_permRom (t : Quad Symbol) (P : Quad Symbol → Bool) :
    rowCount t P = permRom.countP fun q => P (Quad.ofFn fun j => t.get (q.get j)) := by
  rw [← map_perm_range, List.countP_map]
  rfl

/-- Each share takes its symbol from each place of the entry in six rows (R66). -/
theorem places_of_share (i : Fin 4) :
    (permRom.map fun q => q.get i).Perm (List.replicate 6 allLanes).flatten := by
  revert i
  decide

/-- How many rows give a share the symbol `a`: six for each place of the entry that holds it. -/
theorem rowCount_share (t : Quad Symbol) (i : Fin 4) (a : Symbol) :
    rowCount t (fun y => y.get i == a) = 6 * t.toList.count a := by
  calc rowCount t (fun y => y.get i == a)
      = (permRom.map fun q => q.get i).countP fun m => t.get m == a := by
        simp only [rowCount_eq_countP_permRom, Quad.get_ofFn, List.countP_map, Function.comp_def]
    _ = 6 * allLanes.countP fun m => t.get m == a := by
        rw [(places_of_share i).countP_eq, List.countP_flatten, List.map_replicate, List.sum_replicate, smul_eq_mul]
    _ = 6 * t.toList.count a := by
        rw [toList_eq_map_get, List.count, List.countP_map]
        rfl

/-- The zero entries hold every symbol six times. -/
theorem sum_count_zcat (a : Symbol) : ∑ e ∈ Finset.range 6, (zcat e).toList.count a = 6 := by
  revert a
  decide

/-- The all-identical entries hold every symbol four times. -/
theorem sum_count_ocat (a : Symbol) : ∑ o ∈ Finset.range 4, (ocat o).toList.count a = 4 := by
  revert a
  decide

/-- The all-distinct entry holds every symbol once. -/
theorem count_ocat_four (a : Symbol) : (ocat 4).toList.count a = 1 := by
  revert a
  decide

/-- Settles O54: entry by entry, every symbol comes from a quarter of the places. -/
theorem oneShareIsUniform : Obligations.OneShareIsUniform := by
  intro w b i a
  have hcount : ((drawPairs w b).filter fun dp => (encBit w b dp).get i == a).length
      = drawCount w b fun y => y.get i == a := List.countP_eq_length_filter.symm
  rw [hcount, length_drawPairs]
  cases b with
  | false =>
    simp only [drawCount_zero, rowCount_share, ← Finset.mul_sum, sum_count_zcat]
    rfl
  | true =>
    simp only [drawCount_one, rowCount_share, ← Finset.mul_sum, sum_count_ocat, count_ocat_four, Weights.no, if_true]
    omega

/-! #### Two shares -/

/-- The ordered pairs of different places of an entry. -/
def placePairs : List (Fin 4 × Fin 4) := (allLanes.product allLanes).filter fun m => m.1 ≠ m.2

/-- Two shares take their symbols from each ordered pair of different places of the entry in two rows (R66). -/
theorem places_of_shares {i j : Fin 4} (h : i ≠ j) :
    (permRom.map fun q => (q.get i, q.get j)).Perm (placePairs ++ placePairs) := by
  revert i j
  decide

/-- How many ordered pairs of different places of an entry hold the symbols `a` and `c`. -/
def symbolPairs (t : Quad Symbol) (a c : Symbol) : Nat :=
  placePairs.countP fun m => t.get m.1 == a && t.get m.2 == c

/-- How many rows give two shares the symbols `a` and `c`: two for each pair of places that holds them. -/
theorem rowCount_shares (t : Quad Symbol) {i j : Fin 4} (h : i ≠ j) (a c : Symbol) :
    rowCount t (fun y => y.get i == a && y.get j == c) = 2 * symbolPairs t a c := by
  calc rowCount t (fun y => y.get i == a && y.get j == c)
      = (permRom.map fun q => (q.get i, q.get j)).countP fun m => t.get m.1 == a && t.get m.2 == c := by
        simp only [rowCount_eq_countP_permRom, Quad.get_ofFn, List.countP_map, Function.comp_def]
    _ = symbolPairs t a c + symbolPairs t a c := by
        rw [(places_of_shares h).countP_eq, List.countP_append]
        rfl
    _ = 2 * symbolPairs t a c := (Nat.two_mul _).symm

/-- The zero entries hold two equal symbols in six pairs of places, two different ones in four. -/
theorem sum_symbolPairs_zcat (a c : Symbol) :
    ∑ e ∈ Finset.range 6, symbolPairs (zcat e) a c = if a = c then 6 else 4 := by
  revert a c
  decide

/-- The all-identical entries hold two equal symbols in all twelve pairs of places. -/
theorem sum_symbolPairs_ocat (a c : Symbol) :
    ∑ o ∈ Finset.range 4, symbolPairs (ocat o) a c = if a = c then 12 else 0 := by
  revert a c
  decide

/-- The all-distinct entry holds two different symbols in one pair of places. -/
theorem symbolPairs_ocat_four (a c : Symbol) : symbolPairs (ocat 4) a c = if a = c then 0 else 1 := by
  revert a c
  decide

theorem pairCount_eq_drawCount (w : Weights) (b : Bool) (i j : Fin 4) (a c : Symbol) :
    pairCount w b i j a c = drawCount w b fun y => y.get i == a && y.get j == c :=
  List.countP_eq_length_filter.symm

/-- Two shares of a zero bit (R101). -/
theorem pairCount_zero (w : Weights) {i j : Fin 4} (h : i ≠ j) (a c : Symbol) :
    pairCount w false i j a c = if a = c then 12 else 8 := by
  rw [pairCount_eq_drawCount, drawCount_zero]
  simp only [rowCount_shares _ h, ← Finset.mul_sum, sum_symbolPairs_zcat]
  split <;> rfl

/-- Two shares of a one bit (R101). -/
theorem pairCount_one (w : Weights) {i j : Fin 4} (h : i ≠ j) (a c : Symbol) :
    pairCount w true i j a c = if a = c then 24 * w.wIdent else 2 * w.wDist := by
  rw [pairCount_eq_drawCount, drawCount_one]
  simp only [rowCount_shares _ h, ← Finset.mul_sum, sum_symbolPairs_ocat, symbolPairs_ocat_four]
  split <;> omega

/-- Settles O55: two equal symbols have 12 of 144 draw pairs of a zero bit and 24·`W_IDENT` of 24·`NO` of a one bit, two
different ones 8 and 2·`W_DIST`; either ratio is the same for both bits exactly at the weighting named. -/
theorem twoSharesHideTheBitExactlyAtEightToOne : Obligations.TwoSharesHideTheBitExactlyAtEightToOne := by
  intro w i j hij
  simp only [pairCount_zero w hij, pairCount_one w hij, length_drawPairs, Weights.no, Bool.false_eq_true, if_false, if_true]
  constructor
  · intro h
    have hequal := h 0 0
    simp only [if_true] at hequal
    omega
  · intro hw a c
    split <;> omega

end Sys2Proof.Machine

/-! ### Encoding a whole stream

Between `ENC.START` and `ENC.END` the encoder stands in a state `openedAt`, which `ENC.BYTE` takes from one count and one set
of shares to the next; the shares grow by `shareBytes`. -/

namespace Sys2Proof.Machine

/-! #### The symbols of a share -/

/-- What encoding a source pushes to share `j` (R98). -/
def shareBytes (w : Weights) (src : List (Byte × Octet DrawPair)) (j : Fin 4) : List Byte :=
  src.flatMap fun x => wordBytes ((encWords w x.1 x.2).get j)

section
variable (w : Weights) (x : Byte × Octet DrawPair) (src : List (Byte × Octet DrawPair)) (j : Fin 4)

@[simp] theorem shareBytes_nil : shareBytes w [] j = [] := rfl

@[simp] theorem shareBytes_cons :
    shareBytes w (x :: src) j = wordBytes ((encWords w x.1 x.2).get j) ++ shareBytes w src j := rfl

/-- Two bytes per source byte (R47). -/
theorem length_shareBytes : (shareBytes w src j).length = 2 * src.length := by
  simp [shareBytes, List.length_flatMap, wordBytes, Nat.mul_comm]

end

/-- The first eight positions of a share are those of its first word (R43, R44). -/
theorem symAt_wordBytes_append (v : ShareWord) (rest : List Byte) (k : Fin 8) :
    symAt (wordBytes v ++ rest) k.val = unpackSym v k := by
  fin_cases k <;> exact extract_extract v (by decide)

/-- A word takes eight positions of a share (R43, R44). -/
theorem symAt_wordBytes_append_add (v : ShareWord) (rest : List Byte) (p : Nat) :
    symAt (wordBytes v ++ rest) (p + 8) = symAt rest p := by
  have hbyte : (p + 8) / 4 = p / 4 + 2 := by omega
  have hplace : (p + 8) % 4 = p % 4 := by omega
  rw [symAt, symAt, hbyte, hplace]
  rfl

/-- The symbol of position `8i + k` of a share is that of bit `k` of source byte `i` (R98). -/
theorem symAt_shareBytes (w : Weights) {src : List (Byte × Octet DrawPair)} {i : Nat} {x : Byte × Octet DrawPair}
    (hx : src[i]? = some x) (j : Fin 4) (k : Fin 8) :
    symAt (shareBytes w src j) (8 * i + k.val) = (encBit w (byteBit x.1 k) (x.2.get k)).get j := by
  induction src generalizing i with
  | nil => simp at hx
  | cons y src ih =>
    rw [shareBytes_cons]
    cases i with
    | zero =>
      obtain rfl : y = x := by simpa using hx
      rw [Nat.mul_zero, Nat.zero_add, symAt_wordBytes_append, unpackSym_encWords]
    | succ i =>
      rw [show 8 * (i + 1) + k.val = 8 * i + k.val + 8 by omega, symAt_wordBytes_append_add]
      exact ih (by simpa using hx)

/-! #### The run -/

/-- The encoder `s` inside an invocation, with the count `n` and the shares `sh`. -/
def openedAt (s : State) (n : Nat) (sh : Quad (List Byte)) : State :=
  { s with enc := { state := .run, count := n % 2 ^ s.lenW, dp := EncDatapath.zero }, sh := sh, rej := false }

theorem exec_encStart_eq_openedAt (s : State) : exec .encStart s = .next (openedAt s 0 s.sh) := by
  simp [exec, execEncStart, accept, openedAt, EncRegs.zero]

/-- The counter wraps once, whether it wraps at every count or at the end (R12). -/
theorem nextCount_mod (lenW n : Nat) : nextCount lenW (n % 2 ^ lenW) = (n + 1) % 2 ^ lenW :=
  Nat.mod_add_mod n _ 1

theorem exec_encByte_openedAt {s : State} {d : Byte} {draws : Octet DrawPair}
    (hdraws : ∀ k, ¬ drawOutOfRange s.weights (byteBit d k) (draws.get k)) (n : Nat) (sh : Quad (List Byte)) :
    exec (.encByte d draws) (openedAt s n sh)
      = .next (openedAt s (n + 1) (Quad.ofFn fun j => sh.get j ++ wordBytes ((encWords s.weights d draws).get j))) := by
  rw [exec_encByte_of_run (s := openedAt s n sh) rfl hdraws]
  simp only [openedAt, accept, pushShares, nextCount_mod]

/-- The `ENC.BYTE` commands of a source, whatever follows them (R98). -/
theorem runOps_encBytes_openedAt {s : State} {src : List (Byte × Octet DrawPair)} (rest : List Instr)
    (hdraws : ∀ x ∈ src, ∀ k, ¬ drawOutOfRange s.weights (byteBit x.1 k) (x.2.get k)) (n : Nat) (sh : Quad (List Byte)) :
    runOps ((src.map fun x => .encByte x.1 x.2) ++ rest) (openedAt s n sh)
      = runOps rest (openedAt s (n + src.length) (Quad.ofFn fun j => sh.get j ++ shareBytes s.weights src j)) := by
  induction src generalizing n sh with
  | nil =>
    have hsh : (Quad.ofFn fun j => sh.get j ++ shareBytes s.weights [] j) = sh := Quad.ext_get fun j => by simp
    rw [hsh]
    rfl
  | cons x src ih =>
    obtain ⟨hx, hsrc⟩ := List.forall_mem_cons.mp hdraws
    rw [List.map_cons, List.cons_append, runOps, exec_encByte_openedAt hx]
    dsimp only
    rw [ih hsrc]
    simp only [Quad.get_ofFn, shareBytes_cons, List.append_assoc, List.length_cons, Nat.add_assoc, Nat.add_comm 1]

theorem runOps_encEnd_openedAt (s : State) (n : Nat) (sh : Quad (List Byte)) :
    runOps [.encEnd] (openedAt s n sh)
      = .next { s with enc := { state := .done, count := n % 2 ^ s.lenW, dp := EncDatapath.zero }, sh := sh, rej := false } :=
  rfl

/-- `ENCODE` from any state (R80, R98). -/
theorem runOps_encodeOps {s : State} {src : List (Byte × Octet DrawPair)}
    (hdraws : ∀ x ∈ src, ∀ k, ¬ drawOutOfRange s.weights (byteBit x.1 k) (x.2.get k)) :
    runOps (encodeOps src) s
      = .next
          { s with
            enc := { state := .done, count := src.length % 2 ^ s.lenW, dp := EncDatapath.zero }
            sh := Quad.ofFn fun j => s.sh.get j ++ shareBytes s.weights src j
            rej := false } := by
  rw [encodeOps, List.cons_append, runOps, exec_encStart_eq_openedAt]
  dsimp only
  rw [runOps_encBytes_openedAt _ hdraws, runOps_encEnd_openedAt, Nat.zero_add]

/-- Settles O58: the shares grow by `shareBytes`, whose symbols `symAt_shareBytes` names. -/
theorem encodeWholeStream : Obligations.EncodeWholeStream := by
  intro src s hdraws
  refine ⟨Quad.ofFn (shareBytes s.weights src), ?_, fun j => ?_⟩
  · simp only [Quad.get_ofFn, runOps_encodeOps hdraws]
  · rw [Quad.get_ofFn]
    exact ⟨length_shareBytes s.weights src j, fun i k x hx => symAt_shareBytes s.weights hx j k⟩

end Sys2Proof.Machine

/-! ### The vote of a column -/

namespace Sys2Proof.Machine

/-- Settles O45: a word is its eight symbols, and each comes back from its own place. -/
theorem packAndUnpackAreInverse : Obligations.PackAndUnpackAreInverse := by
  refine ⟨fun w k => ⟨?high, ?low⟩, unpackSym_packWord, fun w => shareWord_ext (unpackSym_packWord (unpackSym w))⟩
  case high =>
    have hplace : 14 - 2 * k.val + 1 = 15 - 2 * k.val := by omega
    simp only [unpackSym, BitVec.getLsbD_extractLsb', hplace]
    rfl
  case low =>
    simp only [unpackSym, BitVec.getLsbD_extractLsb', Nat.add_zero]
    rfl

/-! #### The comparator array -/

/-- How many symbols of a column equal `x`, counted place by place. -/
theorem length_filter_eq_card (c : List Symbol) (x : Symbol) :
    (c.filter fun y => y == x).length = (Finset.univ.filter fun j : Fin c.length => x = c.get j).card := by
  calc (c.filter fun y => y == x).length
      = ((List.finRange c.length).map c.get).countP fun y => y == x := by
        rw [List.map_get_finRange, List.countP_eq_length_filter]
    _ = (List.finRange c.length).countP fun j => x = c.get j := by
        rw [List.countP_map]
        exact List.countP_congr fun j _ => by simpa using eq_comm
    _ = _ := List.countP_eq_length_filter

/-- The pairs of equal places of a column are those with its first place and those without it. -/
theorem card_equalPairs_cons (x : Symbol) (c : List Symbol) :
    (Finset.univ.filter fun p : Fin (c.length + 1) × Fin (c.length + 1) =>
        p.1 < p.2 ∧ (x :: c).get p.1 = (x :: c).get p.2).card
      = (Finset.univ.filter fun j : Fin c.length => x = c.get j).card
        + (Finset.univ.filter fun p : Fin c.length × Fin c.length => p.1 < p.2 ∧ c.get p.1 = c.get p.2).card := by
  simp only [Finset.card_filter, Fintype.sum_prod_type, Fin.sum_univ_succ, Fin.succ_pos, Fin.not_lt_zero,
    Fin.succ_lt_succ_iff, true_and, false_and, if_false, zero_add, List.get_cons_zero]
  rfl

/-- `Same` counts the pairs of equal places (R111). -/
theorem same_eq_card_equalPairs (c : List Symbol) :
    same c = (Finset.univ.filter fun p : Fin c.length × Fin c.length => p.1 < p.2 ∧ c.get p.1 = c.get p.2).card := by
  induction c with
  | nil => rfl
  | cons x c ih =>
    rw [same, ih, length_filter_eq_card]
    exact (card_equalPairs_cons x c).symm

/-- Settles O47: the first place of a column is in as many pairs as it has equals after it. -/
theorem sameCountsEqualPairs : Obligations.SameCountsEqualPairs :=
  ⟨same_eq_card_equalPairs, fun _ _ => same_eq_of_perm⟩

/-- The counts of equal pairs that three symbols can have (R114). -/
theorem same_of_length_three {c : List Symbol} (h : c.length = 3) : same c = 0 ∨ same c = 1 ∨ same c = 3 := by
  obtain ⟨x, y, z, rfl⟩ := List.length_eq_three.mp h
  clear h
  revert x y z
  decide

/-- Settles O49, from the counts of four and of three symbols. -/
theorem achievableCounts : Obligations.AchievableCounts := by
  intro c
  refine ⟨fun h => ?four, fun h => ?three⟩
  case four => simpa using same_of_length_four h
  case three => simpa using same_of_length_three h

/-- Settles O48, row by row. -/
theorem decisionRules : Obligations.DecisionRules :=
  ⟨rfl, rfl, rfl, rfl, rfl, rfl, rfl, rfl, rfl, rfl, fun n _ => classify3_ne_corrupt n⟩

/-! #### Encoded columns -/

/-- The columns of a zero bit have two equal pairs, those of a one bit none or six (R62 to R65, R91). -/
def HasCountOf (b : Bool) (c : List Symbol) : Prop := if b then same c = 0 ∨ same c = 6 else same c = 2

theorem hasCountOf_encBit {w : Weights} {b : Bool} {dp : DrawPair} (h : ¬ drawOutOfRange w b dp) :
    HasCountOf b (encBit w b dp).toList := by
  obtain ⟨hp, he⟩ := (drawInRange_iff w b dp).mp (drawInRange_iff_not_drawOutOfRange.mpr h)
  obtain ⟨hzero, hone, -, hdistinct⟩ := catalogEntries
  rw [HasCountOf, encBit, same_permute _ hp, mapBit]
  cases b with
  | false =>
    obtain ⟨-, -, -, hsame⟩ := hzero dp.e he
    exact hsame
  | true =>
    obtain hlt | heq := Nat.lt_succ_iff_lt_or_eq.mp (oIdx_lt_five w dp.e)
    · obtain ⟨-, hsame⟩ := hone _ hlt
      exact .inr hsame
    · exact .inl (by rw [heq]; exact hdistinct)

/-- Any one symbol left out of an encoded column leaves the three-lane count of the same bit (R113, R120). -/
theorem classify3_of_hasCountOf_cons {b : Bool} {x : Symbol} {c : List Symbol} (hc : c.length = 3)
    (h : HasCountOf b (x :: c)) : classify3 (same c) = .bit b := by
  obtain ⟨y, z, u, rfl⟩ := List.length_eq_three.mp hc
  clear hc
  unfold HasCountOf at h
  revert b x y z u
  decide

/-- Any one symbol of an encoded column changed gives one or three equal pairs (R121). -/
theorem classify4_of_hasCountOf_cons_ne {b : Bool} {x y : Symbol} {c : List Symbol} (hc : c.length = 3) (hne : y ≠ x)
    (h : HasCountOf b (x :: c)) : classify4 (same (y :: c)) = .corrupt := by
  obtain ⟨z, u, v, rfl⟩ := List.length_eq_three.mp hc
  clear hc
  unfold HasCountOf at h
  revert b x y z u v
  decide

theorem classify4_of_hasCountOf {b : Bool} {c : List Symbol} (h : HasCountOf b c) : classify4 (same c) = .bit b := by
  cases b with
  | false => rw [show same c = 2 from h]; rfl
  | true => obtain h | h : same c = 0 ∨ same c = 6 := h <;> rw [h] <;> rfl

/-- A count of equal pairs does not depend on the order of the symbols (R111). -/
theorem HasCountOf.perm {b : Bool} {c c' : List Symbol} (h : HasCountOf b c) (hc : c.Perm c') : HasCountOf b c' := by
  rwa [HasCountOf, ← same_eq_of_perm hc]

/-- With three lanes enabled, one lane is left out. -/
theorem allLanes_perm_cons_enabledLanes {mask : BitVec 4} (h : popcount mask = 3) :
    ∃ j, allLanes.Perm (j :: enabledLanes mask) := by
  revert mask
  decide

/-- With four lanes enabled, none is left out. -/
theorem enabledLanes_eq_allLanes {mask : BitVec 4} (h : popcount mask = 4) : enabledLanes mask = allLanes :=
  List.filter_sublist.eq_of_length h

/-- Three or four lanes of a column with the count of a bit vote that bit (R112, R113). -/
theorem decPos_of_hasCountOf {mask : BitVec 4} {b : Bool} {f : Fin 4 → Symbol} (hp : 3 ≤ popcount mask)
    (h : HasCountOf b (allLanes.map f)) :
    decPos (BitVec.ofNat 3 (popcount mask)) ((enabledLanes mask).map f) = .bit b := by
  have hle := popcount_le_four mask
  obtain h3 | h4 : popcount mask = 3 ∨ popcount mask = 4 := by omega
  · obtain ⟨j, hj⟩ := allLanes_perm_cons_enabledLanes h3
    have hlen : ((enabledLanes mask).map f).length = 3 := by rw [List.length_map]; exact h3
    rw [h3]
    exact classify3_of_hasCountOf_cons hlen (h.perm (hj.map f))
  · rw [h4, enabledLanes_eq_allLanes h4]
    exact classify4_of_hasCountOf h

/-- Settles O51: an encoded column has the count of its bit. -/
theorem voteRecoversTheBit : Obligations.VoteRecoversTheBit :=
  fun _ _ _ _ hdraw hp => decPos_of_hasCountOf hp (hasCountOf_encBit hdraw)

/-- Settles O52: the lanes in an order that puts the changed one first. -/
theorem singleSymbolChangeIsDetected : Obligations.SingleSymbolChangeIsDetected := by
  intro w b dp j x hdraw hne
  have hlanes : allLanes.Perm (j :: allLanes.erase j) := List.perm_cons_erase (mem_allLanes j)
  have hothers : (allLanes.erase j).map (fun i => if i = j then x else (encBit w b dp).get i)
      = (allLanes.erase j).map (encBit w b dp).get :=
    List.map_congr_left fun i hi => if_neg fun hij => by
      subst hij
      exact absurd hi (List.Nodup.not_mem_erase (by decide))
  have hlen : ((allLanes.erase j).map (encBit w b dp).get).length = 3 := by
    rw [List.length_map, List.length_erase_of_mem (mem_allLanes j)]
    rfl
  change classify4 (same _) = .corrupt
  rw [same_eq_of_perm (hlanes.map _), List.map_cons, if_pos rfl, hothers]
  exact classify4_of_hasCountOf_cons_ne hlen hne ((hasCountOf_encBit hdraw).perm (hlanes.map (encBit w b dp).get))

/-! #### The order of the lanes -/

/-- The lanes in another order are all the lanes. -/
theorem map_allLanes_perm {lane : Fin 4 → Fin 4} (h : Function.Injective lane) : (allLanes.map lane).Perm allLanes := by
  have hsurj := Finite.surjective_of_injective h
  refine (List.perm_ext_iff_of_nodup (List.Nodup.map h (by decide)) (by decide)).mpr fun j => ?_
  obtain ⟨i, rfl⟩ := hsurj j
  simp

section
variable {mask mask' : BitVec 4} {w w' : Quad ShareWord} {σ : Equiv.Perm (Fin 4)}

theorem enabledLanes_perm_map (hmask : ∀ j : Fin 4, mask'.getLsbD (σ j).val = mask.getLsbD j.val) :
    (enabledLanes mask').Perm ((enabledLanes mask).map σ) := by
  have hnodup (m : BitVec 4) : (enabledLanes m).Nodup := List.Nodup.filter _ (by decide)
  refine (List.perm_ext_iff_of_nodup (hnodup _) ((hnodup _).map σ.injective)).mpr fun j => ?_
  obtain ⟨i, rfl⟩ := σ.surjective j
  rw [List.mem_map_of_injective σ.injective, mem_enabledLanes, mem_enabledLanes, hmask]

/-- Moving words and mask bits together moves the symbols of a column (R123). -/
theorem decColumn_perm (hmask : ∀ j : Fin 4, mask'.getLsbD (σ j).val = mask.getLsbD j.val)
    (hw : ∀ j : Fin 4, w'.get (σ j) = w.get j) (k : Fin 8) : (decColumn mask' w' k).Perm (decColumn mask w k) := by
  have h := (enabledLanes_perm_map hmask).map fun j => unpackSym (w'.get j) k
  simpa only [decColumn, List.map_map, Function.comp_def, hw] using h

end

end Sys2Proof.Machine

/-! ### The decoder's operations -/

namespace Sys2Proof.Machine

/-! #### `DEC.START` and `DEC.ABORT` -/

/-- Settles O28: the code carries no operand, and `DEC.ABORT` gives every decoder register its reset value. -/
theorem decAbortClears : Obligations.DecAbortClears :=
  ⟨fun _ _ hc => decode_eq_ok_iff.mpr ⟨hc, trivial⟩, fun _ => rfl⟩

/-- The count of the enabled lanes is the sum of the mask bits (R16). -/
theorem popcount_eq_sum (mask : BitVec 4) :
    popcount mask
      = (mask.getLsbD 0).toNat + (mask.getLsbD 1).toNat + (mask.getLsbD 2).toNat + (mask.getLsbD 3).toNat := by
  revert mask
  decide

/-- `DEC.START` with too few lanes (R116, check 1). -/
theorem exec_decStart_of_insufficient {s : State} {mask : BitVec 4} (len : Quad Nat) (hp : popcount mask < 3) :
    exec (.decStart mask len) s
      = .next (raiseError (insufficientShares s.lenW (popcount mask)) (latchMask mask s)) := by
  simp only [exec, execDecStart, startFault, if_pos hp]

/-- `DEC.START` with every check passed (R116). -/
theorem exec_decStart_of_even {s : State} {mask : BitVec 4} {len : Quad Nat} {L : Nat} (hp : 3 ≤ popcount mask)
    (hlen : ∀ i : Fin 4, mask.getLsbD i.val = true → len.get i = L) (heven : L % 2 = 0) :
    exec (.decStart mask len) s = .next (openDecode L (latchMask mask s)) := by
  have hr : len.get (refLane mask) = L := hlen _ (refLane_enabled (by omega))
  have hd : differingLane mask len = none := (differingLane_eq_none mask len).mpr fun j hj => by rw [hlen j hj, hr]
  have hfault : startFault s.lenW mask len = none := by
    rw [startFault, if_neg (Nat.not_lt.mpr hp), hd, hr]
    exact if_neg (by omega)
  simp only [exec, execDecStart, hfault, hr]

/-- Settles O18: the two counts recorded are what their registers hold of them. -/
theorem decStartInsufficientShares : Obligations.DecStartInsufficientShares := by
  intro s mask len n hn hlt
  rw [← popcount_eq_sum] at hn
  subst hn
  exact ⟨countField s.lenW 3, countField s.lenW (popcount mask), countField_eq, countField_eq, countField_lt _ _,
    countField_lt _ _, exec_decStart_of_insufficient len hlt⟩

/-- Settles O21: every check passes. -/
theorem decStartOpens : Obligations.DecStartOpens := by
  intro s mask len n L hn hp hlen heven
  rw [← popcount_eq_sum] at hn
  subst hn
  exact exec_decStart_of_even hp hlen heven

/-! #### `DEC.WORD` -/

/-- A corrupt column with no corrupt one before it is the lowest (R117). -/
theorem firstCorrupt_eq_some {n : BitVec 3} {mask : BitVec 4} {w : Quad ShareWord} {k : Fin 8}
    (hk : wordVote n mask w k = .corrupt) (hlow : ∀ i < k, wordVote n mask w i ≠ .corrupt) :
    firstCorrupt n mask w = some k := by
  have hplace : ∀ i : Fin 8, allColumns[i.val]'i.isLt = i := by decide
  refine List.find?_eq_some_iff_getElem.mpr ⟨beq_iff_eq.mpr hk, k.val, k.isLt, hplace k, fun j hj => ?_⟩
  have hne := hlow ⟨j, by omega⟩ hj
  rw [← hplace ⟨j, by omega⟩] at hne
  rw [Bool.not_eq_true', beq_eq_false_iff_ne]
  exact hne

/-- `DEC.WORD` in `RUN` with a corrupt column (R117). -/
theorem exec_decWord_of_firstCorrupt {s : State} {w : Quad ShareWord} {k : Fin 8} (hrun : s.dec.state = .run)
    (hk : firstCorrupt s.dec.n s.dec.mask w = some k) :
    exec (.decWord w) s
      = .next (raiseError (corruptedInput (addPos s.lenW s.dec.pos k.val) (same (decColumn s.dec.mask w k))) s) := by
  simp only [exec, execDecWord, if_pos hrun, hk]

/-- `DEC.WORD` in `RUN` without a corrupt column (R117). -/
theorem exec_decWord_of_no_corrupt {s : State} {w : Quad ShareWord} (hrun : s.dec.state = .run)
    (hk : firstCorrupt s.dec.n s.dec.mask w = none) :
    exec (.decWord w) s = .next (advanceDecode (wordByte s.dec.n s.dec.mask w) s) := by
  simp only [exec, execDecWord, if_pos hrun, hk]

/-- Settles O50: each column has the same symbols, so the same count and the same vote. -/
theorem lanesAreAnonymous : Obligations.LanesAreAnonymous := by
  intro s t mask' w w' σ hmask hw h
  have hsame (k : Fin 8) : same (decColumn mask' w' k) = same (decColumn s.dec.mask w k) :=
    same_eq_of_perm (decColumn_perm hmask hw k)
  have hvote : wordVote s.dec.n mask' w' = wordVote s.dec.n s.dec.mask w := by
    funext k
    rw [wordVote, wordVote, decPos, decPos, hsame k]
  have hfirst : firstCorrupt s.dec.n mask' w' = firstCorrupt s.dec.n s.dec.mask w := by
    rw [firstCorrupt, hvote, firstCorrupt]
  obtain ⟨hrun, k, hk, rfl⟩ | ⟨hrun, hk, rfl⟩ | ⟨hno, rfl⟩ := execDecWord_cases h
  · rw [exec_decWord_of_firstCorrupt (s := { s with dec := { s.dec with mask := mask' } }) hrun (hfirst.trans hk),
      hsame k]
    rfl
  · rw [exec_decWord_of_no_corrupt (s := { s with dec := { s.dec with mask := mask' } }) hrun (hfirst.trans hk),
      wordByte, hvote]
    rfl
  · exact if_neg hno

/-- A word is left and the position of its last column fits: the counters move without wrapping (R124). -/
theorem advanceDecode_eq {s : State} (b : Byte) (hrem : 0 < s.dec.rem)
    (hfit : s.dec.pos + 8 * s.dec.rem < 2 ^ (s.lenW + 2)) :
    advanceDecode b s
      = { s with
          dec :=
            { s.dec with
              pos := s.dec.pos + 8, rem := s.dec.rem - 1, state := if s.dec.rem = 1 then .done else .run
              dp := DecDatapath.zero }
          out := s.out ++ [b]
          rej := false } := by
  have hpos : addPos s.lenW s.dec.pos 8 = s.dec.pos + 8 := addPos_eq (lt_of_le_of_lt (by omega) hfit)
  have hprev : prevCount s.lenW s.dec.rem = s.dec.rem - 1 := prevCount_eq hrem (by rw [Nat.pow_add] at hfit; omega)
  have hlast : s.dec.rem - 1 = 0 ↔ s.dec.rem = 1 := by omega
  simp only [advanceDecode, accept, pushOut, hpos, hprev, hlast]

/-- Settles O24: the byte pushed has the votes as its bits. -/
theorem decWordPushesByte : Obligations.DecWordPushesByte := by
  intro s w b hrun hrem hfit hvotes
  have hvote (k : Fin 8) : wordVote s.dec.n s.dec.mask w k = .bit (byteBit b k) := hvotes k
  have hbyte : wordByte s.dec.n s.dec.mask w = b := byte_ext fun k => by
    rw [wordByte, byteBit_packByte, hvote k, Vote.value]
  have hnone := (firstCorrupt_eq_none s.dec.n s.dec.mask w).mpr fun k => by simp [hvote k]
  rw [exec_decWord_of_no_corrupt hrun hnone, hbyte, advanceDecode_eq b hrem hfit]

/-- The counts 1 and 3 are those that four lanes cannot vote on (R112, R114). -/
theorem wordVote_all_eq_corrupt_iff (w : Quad ShareWord) (k : Fin 8) :
    wordVote 4 0b1111 w k = .corrupt
      ↔ same (decColumn 0b1111 w k) = 1 ∨ same (decColumn 0b1111 w k) = 3 := by
  constructor
  · intro h
    obtain ⟨-, hsame⟩ := corrupt_column (mask := 0b1111) rfl h
    exact hsame
  · intro h
    change classify4 (same (decColumn 0b1111 w k)) = .corrupt
    obtain h | h := h <;> rw [h] <;> rfl

/-- Settles O25: the votes that are corrupt are those of the columns with 1 or 3 equal pairs. -/
theorem decWordRaisesCorruptedInput : Obligations.DecWordRaisesCorruptedInput := by
  intro s w k hrun hn hmask hrem hfit hk hlow
  have hpos : addPos s.lenW s.dec.pos k.val = s.dec.pos + k.val := addPos_eq (lt_of_le_of_lt (by omega) hfit)
  have hcorrupt : wordVote s.dec.n s.dec.mask w k = .corrupt := by
    rw [hn, hmask]
    exact (wordVote_all_eq_corrupt_iff w k).mpr hk
  have hvotes : ∀ i < k, wordVote s.dec.n s.dec.mask w i ≠ .corrupt := by
    rw [hn, hmask]
    exact fun i hi hc => not_or.mpr (hlow i hi) ((wordVote_all_eq_corrupt_iff w i).mp hc)
  rw [exec_decWord_of_firstCorrupt hrun (firstCorrupt_eq_some hcorrupt hvotes), hpos, hmask]
  rfl

/-- Settles O26: a corrupt column would have four symbols. -/
theorem threeLaneWordsNeverFault : Obligations.ThreeLaneWordsNeverFault := by
  intro s w hrun hn hp hrem hfit
  have hvotes (k : Fin 8) : wordVote s.dec.n s.dec.mask w k ≠ .corrupt := fun hc => by
    obtain ⟨h4, -⟩ := corrupt_column (by rw [hn, hp]; rfl) hc
    rw [hn] at h4
    exact absurd h4 (by decide)
  have hnone := (firstCorrupt_eq_none s.dec.n s.dec.mask w).mpr hvotes
  exact ⟨_, by rw [exec_decWord_of_no_corrupt hrun hnone, advanceDecode_eq _ hrem hfit]⟩

end Sys2Proof.Machine

/-! ### Decoding a whole stream

Between `DEC.START` and the first corrupt column the decoder stands in a state `decodingAt`, which `DEC.WORD` takes from one
word to the next; the output grows by `votedBytes`. -/

namespace Sys2Proof.Machine

/-! #### The columns of the lanes -/

/-- The words `DEC.WORD` takes from the lanes at share word `i` (R80). -/
def wordsAt (x : Quad (List Byte)) (i : Nat) : Quad ShareWord := Quad.ofFn fun j => shareWordAt (x.get j) i

/-- Position `8i + k` of a lane is column `k` of its share word `i` (R43, R44). -/
theorem symAt_eq_unpackSym (x : List Byte) (i : Nat) (k : Fin 8) :
    symAt x (8 * i + k.val) = unpackSym (shareWordAt x i) k := by
  have hbyte : (8 * i + k.val) / 4 = 2 * i + k.val / 4 := by omega
  have hplace : (8 * i + k.val) % 4 = k.val % 4 := by omega
  rw [symAt, hbyte, hplace, unpackSym, shareWordAt]
  obtain hk | hk := Nat.lt_or_ge k.val 4
  · have hdiv : k.val / 4 = 0 := by omega
    rw [extract_append_high _ _ _ _ (by omega), hdiv, Nat.mod_eq_of_lt hk]
    congr 1
    omega
  · have hdiv : k.val / 4 = 1 := by omega
    rw [extract_append_low _ _ _ _ (by omega), hdiv]
    congr 1
    omega

/-- Bit `8i + k` of a stream is bit `k` of its byte `i` (R42). -/
theorem bitAt_eq_byteBit {bytes : List Byte} {i : Nat} (hi : i < bytes.length) (k : Fin 8) :
    bitAt bytes (8 * i + k.val) = byteBit bytes[i] k := by
  have hbyte : (8 * i + k.val) / 8 = i := by omega
  have hplace : (8 * i + k.val) % 8 = k.val := by omega
  rw [bitAt, hbyte, hplace, List.getD_eq_getElem _ _ hi, byteBit]

/-- Every position is column `p mod 8` of word `p div 8`. -/
theorem exists_column {m p : Nat} (hp : p < 8 * m) : ∃ (i : Nat) (k : Fin 8), i < m ∧ p = 8 * i + k.val :=
  ⟨p / 8, ⟨p % 8, by omega⟩, by omega, (Nat.div_add_mod p 8).symm⟩

section
variable (mask : BitVec 4) (x : Quad (List Byte))

/-- The columns of a word are those of its eight positions (R119). -/
theorem columnAt_eq_decColumn (i : Nat) (k : Fin 8) :
    columnAt mask x (8 * i + k.val) = decColumn mask (wordsAt x i) k := by
  simp only [columnAt, decColumn, wordsAt, Quad.get_ofFn, symAt_eq_unpackSym]

/-- The vote of position `p` with `DEC_N` the count of the mask (R115, R119). -/
abbrev voteAt (p : Nat) : Vote := decPos (BitVec.ofNat 3 (popcount mask)) (columnAt mask x p)

/-- The vote of a column of a word is that of its position. -/
theorem wordVote_eq_voteAt (i : Nat) (k : Fin 8) :
    wordVote (BitVec.ofNat 3 (popcount mask)) mask (wordsAt x i) k = voteAt mask x (8 * i + k.val) := by
  rw [wordVote, voteAt, columnAt_eq_decColumn]

/-- The bytes of the first `i` words (R117). -/
def votedBytes (i : Nat) : List Byte :=
  (List.range i).map fun i => wordByte (BitVec.ofNat 3 (popcount mask)) mask (wordsAt x i)

theorem length_votedBytes (i : Nat) : (votedBytes mask x i).length = i := by simp [votedBytes]

theorem votedBytes_succ (i : Nat) :
    votedBytes mask x (i + 1)
      = votedBytes mask x i ++ [wordByte (BitVec.ofNat 3 (popcount mask)) mask (wordsAt x i)] := by
  simp [votedBytes, List.range_succ]

/-- The bits of the voted bytes are the votes of their positions (R45). -/
theorem voteAt_eq_bit_bitAt {i p : Nat} (hp : p < 8 * i) (hvote : voteAt mask x p ≠ .corrupt) :
    voteAt mask x p = .bit (bitAt (votedBytes mask x i) p) := by
  obtain ⟨i', k, hi', rfl⟩ := exists_column hp
  have hbit : bitAt (votedBytes mask x i) (8 * i' + k.val) = (voteAt mask x (8 * i' + k.val)).value := by
    rw [bitAt_eq_byteBit (by rwa [length_votedBytes])]
    simp only [votedBytes, List.getElem_map, List.getElem_range, wordByte, byteBit_packByte, wordVote_eq_voteAt]
  rw [hbit]
  cases hv : voteAt mask x (8 * i' + k.val) with
  | bit b => rfl
  | corrupt => exact absurd hv hvote

end

/-! #### The run -/

/-- The decoder `s` inside an invocation of `m` words, with the first `i` of them voted. -/
def decodingAt (s : State) (mask : BitVec 4) (x : Quad (List Byte)) (m i : Nat) : State :=
  { s with
    dec :=
      { state := if i = m then .done else .run, mask := mask, n := BitVec.ofNat 3 (popcount mask)
        rem := m - i, pos := 8 * i, err := ErrorRegs.zero, dp := DecDatapath.zero }
    out := s.out ++ votedBytes mask x i
    rej := false }

section
variable {s : State} {mask : BitVec 4} {x : Quad (List Byte)} {m : Nat}

/-- `DECODE` opens with no word voted (R80, R116). -/
theorem decodeOp_eq_decodeWords (hp : 3 ≤ popcount mask)
    (hlen : ∀ j : Fin 4, mask.getLsbD j.val = true → (x.get j).length = 2 * m) :
    decodeOp mask x s = decodeWords x m 0 (decodingAt s mask x m 0) := by
  have hstart : exec (.decStart mask (Quad.ofFn fun j => (x.get j).length)) s = .next (decodingAt s mask x m 0) := by
    have hdone : 2 * m = 0 ↔ 0 = m := by omega
    rw [exec_decStart_of_even hp (L := 2 * m) (by simpa using hlen) (by omega)]
    simp [openDecode, latchMask, accept, decodingAt, DecRegs.zero, votedBytes, hdone]
  have hfuel : (x.get (refLane mask)).length / 2 = m := by
    rw [hlen _ (refLane_enabled (by omega))]
    omega
  rw [decodeOp, hstart, hfuel]

/-- A word whose positions vote takes the decoder one word on (R117, R119). -/
theorem exec_decWord_decodingAt {i : Nat} (hi : i < m) (hm : 2 * m < 2 ^ s.lenW)
    (hvotes : ∀ k : Fin 8, voteAt mask x (8 * i + k.val) ≠ .corrupt) :
    exec (.decWord (wordsAt x i)) (decodingAt s mask x m i) = .next (decodingAt s mask x m (i + 1)) := by
  have hlast : m - i = 1 ↔ i + 1 = m := by omega
  have hnone := (firstCorrupt_eq_none (BitVec.ofNat 3 (popcount mask)) mask (wordsAt x i)).mpr fun k => by
    rw [wordVote_eq_voteAt]
    exact hvotes k
  rw [exec_decWord_of_no_corrupt (if_neg hi.ne) hnone, advanceDecode_eq]
  · simp only [decodingAt, votedBytes_succ, List.append_assoc, hlast, Nat.mul_succ, Nat.sub_sub]
  · exact Nat.sub_pos_of_lt hi
  · change 8 * i + 8 * (m - i) < 2 ^ (s.lenW + 2)
    rw [Nat.pow_add]
    omega

/-- In `RUN` the next word is issued (R80). -/
theorem decodeWords_succ {t u : State} {i : Nat} (fuel : Nat) (hrun : t.dec.state = .run)
    (h : exec (.decWord (wordsAt x i)) t = .next u) : decodeWords x (fuel + 1) i t = decodeWords x fuel (i + 1) u := by
  rw [wordsAt] at h
  rw [decodeWords, if_pos hrun, h]

/-- Outside `RUN` no word is issued (R80). -/
theorem decodeWords_of_not_run {t : State} (fuel i : Nat) (h : t.dec.state ≠ .run) : decodeWords x fuel i t = .next t := by
  cases fuel with
  | zero => rfl
  | succ fuel => exact if_neg h

/-- The words before every corrupt position are voted one after another, whatever `DECODE` does with the rest. -/
theorem decodeWords_of_votes {i : Nat} (rest : Nat) (hi : i ≤ m) (hm : 2 * m < 2 ^ s.lenW)
    (hvotes : ∀ p < 8 * i, voteAt mask x p ≠ .corrupt) :
    decodeWords x (i + rest) 0 (decodingAt s mask x m 0) = decodeWords x rest i (decodingAt s mask x m i) := by
  induction i generalizing rest with
  | zero => rw [Nat.zero_add]
  | succ i ih =>
    rw [Nat.add_assoc, Nat.add_comm 1, ih (rest + 1) (by omega) fun p hp => hvotes p (by omega)]
    exact decodeWords_succ rest (if_neg (by omega))
      (exec_decWord_decodingAt hi hm fun k => hvotes (8 * i + k.val) (by omega))

/-- A word with a corrupt position ends `DECODE` at the lowest one (R117, R119). -/
theorem decodeWords_of_corrupt {i : Nat} {k : Fin 8} (rest : Nat) (hi : i < m) (hm : 2 * m < 2 ^ s.lenW)
    (hk : voteAt mask x (8 * i + k.val) = .corrupt)
    (hlow : ∀ p < 8 * i + k.val, voteAt mask x p ≠ .corrupt) :
    decodeWords x (rest + 1) i (decodingAt s mask x m i)
      = .next (raiseError (corruptedInput (8 * i + k.val) (same (columnAt mask x (8 * i + k.val))))
          (decodingAt s mask x m i)) := by
  have hrun : (decodingAt s mask x m i).dec.state = .run := if_neg hi.ne
  have hpos : addPos s.lenW (8 * i) k.val = 8 * i + k.val :=
    addPos_eq (by rw [Config.posW, Nat.pow_add]; omega)
  have hfirst := firstCorrupt_eq_some ((wordVote_eq_voteAt mask x i k).trans hk) fun k' hk' => by
    rw [wordVote_eq_voteAt]
    exact hlow (8 * i + k'.val) (by omega)
  have hexec := exec_decWord_of_firstCorrupt (s := decodingAt s mask x m i) hrun hfirst
  rw [decodeWords_succ rest hrun hexec, decodeWords_of_not_run _ _ (by simp), columnAt_eq_decColumn, ← hpos]
  rfl

end

/-- Settles O59: the words before the lowest corrupt position, or all of them, are voted one after another. -/
theorem decodeWholeStream : Obligations.DecodeWholeStream := by
  intro s mask x m hp hlen hm
  rw [decodeOp_eq_decodeWords hp hlen]
  refine ⟨fun hvotes => ?voted, fun q hq hcorrupt hlow => ?corrupt⟩
  case voted =>
    refine ⟨decodingAt s mask x m m, votedBytes mask x m, ?_, if_pos rfl, rfl, length_votedBytes mask x m,
      fun p hp => voteAt_eq_bit_bitAt mask x hp (hvotes p hp)⟩
    exact decodeWords_of_votes 0 le_rfl hm hvotes
  case corrupt =>
    obtain ⟨i, k, hi, rfl⟩ := exists_column hq
    have hdiv : (8 * i + k.val) / 8 = i := by omega
    obtain ⟨rest, rfl⟩ : ∃ rest, m = i + (rest + 1) := ⟨m - i - 1, by omega⟩
    have hdecode := (decodeWords_of_votes (rest + 1) hi.le hm fun p hp => hlow p (by omega)).trans
      (decodeWords_of_corrupt rest hi hm hcorrupt hlow)
    rw [hdiv]
    exact ⟨_, votedBytes mask x i, hdecode, rfl, rfl, rfl, rfl, length_votedBytes mask x i,
      fun p hp => voteAt_eq_bit_bitAt mask x hp (hlow p (by omega))⟩

/-! #### The round trip -/

/-- A stream is its bits (R42). -/
theorem bytes_ext {a b : List Byte} (hlen : a.length = b.length) (h : ∀ p < 8 * a.length, bitAt a p = bitAt b p) :
    a = b := by
  refine List.ext_getElem hlen fun i ha hb => byte_ext fun k => ?_
  rw [← bitAt_eq_byteBit ha k, ← bitAt_eq_byteBit hb k]
  exact h _ (by omega)

section
variable {w : Weights} {src : List (Byte × Octet DrawPair)} {mask : BitVec 4} {lane : Fin 4 → Fin 4}

/-- The shares of an encode, on the lanes in any order, vote the bits of the source (R120, R123). -/
theorem voteAt_shareBytes {p : Nat} (hdraws : ∀ x ∈ src, ∀ k, ¬ drawOutOfRange w (byteBit x.1 k) (x.2.get k))
    (hmask : 3 ≤ popcount mask) (hlane : Function.Injective lane) (hp : p < 8 * src.length) :
    voteAt mask (Quad.ofFn fun j => shareBytes w src (lane j)) p = .bit (bitAt (src.map Prod.fst) p) := by
  obtain ⟨i, k, hi, rfl⟩ := exists_column hp
  have hget : src[i]? = some src[i] := List.getElem?_eq_getElem hi
  have hcount := (hasCountOf_encBit (hdraws src[i] (List.getElem_mem hi) k)).perm
    ((map_allLanes_perm hlane).map (encBit w (byteBit src[i].1 k) (src[i].2.get k)).get).symm
  rw [List.map_map] at hcount
  rw [bitAt_eq_byteBit (by simpa using hi), List.getElem_map]
  simp only [voteAt, columnAt, Quad.get_ofFn, symAt_shareBytes w hget]
  exact decPos_of_hasCountOf hmask hcount

/-- `DECODE` of the shares of an encode, on the lanes in any order, pushes the source (R120, R123). -/
theorem decodeOp_shareBytes {t : State} (hdraws : ∀ x ∈ src, ∀ k, ¬ drawOutOfRange w (byteBit x.1 k) (x.2.get k))
    (hmask : 3 ≤ popcount mask) (hlane : Function.Injective lane) (hm : 2 * src.length < 2 ^ t.lenW) :
    ∃ u, decodeOp mask (Quad.ofFn fun j => shareBytes w src (lane j)) t = .next u ∧ u.dec.state = .done
      ∧ u.out = t.out ++ src.map Prod.fst := by
  have hvote (p : Nat) (hp : p < 8 * src.length) := voteAt_shareBytes hdraws hmask hlane hp
  obtain ⟨hvoted, -⟩ := decodeWholeStream t mask (Quad.ofFn fun j => shareBytes w src (lane j)) src.length hmask
    (fun j _ => by rw [Quad.get_ofFn, length_shareBytes]) hm
  obtain ⟨u, bytes, hdecode, hdone, hout, hlen, hbits⟩ := hvoted fun p hp => by simp [hvote p hp]
  have hbytes : bytes = src.map Prod.fst := bytes_ext (by rw [hlen, List.length_map]) fun p hp => by
    rw [hlen] at hp
    exact Vote.bit.inj ((hbits p hp).symm.trans (hvote p hp))
  exact ⟨u, hdecode, hdone, hbytes ▸ hout⟩

end

/-- Settles O60: `ENCODE` pushes the shares and keeps the output, to which `DECODE` of the shares adds the source. -/
theorem roundTripOfEverySource : Obligations.RoundTripOfEverySource := by
  intro src s mask lane hdraws hmask hlane hm
  obtain ⟨t, hencode, hlenW, hout, hsh⟩ : ∃ t, runOps (encodeOps src) s = .next t ∧ t.lenW = s.lenW ∧ t.out = s.out
      ∧ ∀ j, t.sh.get j = s.sh.get j ++ shareBytes s.weights src j :=
    ⟨_, runOps_encodeOps hdraws, rfl, rfl, fun j => Quad.get_ofFn _ j⟩
  obtain ⟨u, hdecode, hdone, hpushed⟩ := decodeOp_shareBytes (t := t) hdraws hmask hlane (by rwa [hlenW])
  refine ⟨t, u, Quad.ofFn (shareBytes s.weights src), hencode, ?_, ?_, hdone, hout ▸ hpushed⟩
  · simpa only [Quad.get_ofFn] using hsh
  · simpa only [Quad.get_ofFn] using hdecode

end Sys2Proof.Machine

/-! ### Control: no-operations, rejection and progress -/

namespace Sys2Proof.Machine

/-- Settles O13: the two codes carry no operand, and either command only clears `rej`. -/
theorem nopsChangeNothing : Obligations.NopsChangeNothing :=
  ⟨fun _ _ => ⟨fun hc => decode_eq_ok_iff.mpr ⟨hc, trivial⟩, fun hc => decode_eq_ok_iff.mpr ⟨hc, trivial⟩⟩,
    fun _ => ⟨rfl, rfl⟩⟩

/-! #### Rejection -/

/-- `ENC.BYTE` outside the first row of the table of R141: it runs, and every draw is in range. -/
theorem not_rejectedWhen_encByte {d : Byte} {draws : Octet DrawPair} {s : State} :
    ¬ rejectedWhen (.encByte d draws) s ↔ s.enc.state = .run ∧ drawsInRange s.weights d draws = true := by
  rw [drawsInRange_iff_forall_not_drawOutOfRange]
  exact not_or.trans (and_congr not_not not_exists)

/-- What every command can do (R141): outside the table it is accepted, and by the table it is rejected, which changes
nothing but `rej`. -/
theorem exec_rejection_cases {i : Instr} {s t : State} (h : exec i s = .next t) :
    (¬ rejectedWhen i s ∧ t.rej = false) ∨ (rejectedWhen i s ∧ t = reject s) := by
  cases i with
  | encNop | encStart | encAbort | decNop | decAbort =>
    cases h
    exact .inl ⟨not_false, rfl⟩
  | encByte d draws =>
    obtain ⟨hrun, hdraws, rfl⟩ | ⟨hno, rfl⟩ := execEncByte_cases h
    · exact .inl ⟨not_rejectedWhen_encByte.mpr ⟨hrun, hdraws⟩, rfl⟩
    · exact .inr ⟨not_not.mp (mt not_rejectedWhen_encByte.mp hno), rfl⟩
  | encEnd =>
    obtain ⟨hrun, rfl⟩ | ⟨hno, rfl⟩ := execEncEnd_cases h
    · exact .inl ⟨not_not.mpr hrun, rfl⟩
    · exact .inr ⟨hno, rfl⟩
  | decStart mask len =>
    obtain ⟨e, -, rfl⟩ | ⟨-, rfl⟩ := execDecStart_cases h <;> exact .inl ⟨not_false, rfl⟩
  | decWord w =>
    obtain ⟨hrun, k, -, rfl⟩ | ⟨hrun, -, rfl⟩ | ⟨hno, rfl⟩ := execDecWord_cases h
    · exact .inl ⟨not_not.mpr hrun, rfl⟩
    · exact .inl ⟨not_not.mpr hrun, rfl⟩
    · exact .inr ⟨hno, rfl⟩

/-- A command word that carries no operation is rejected (R74, R141). -/
theorem step_of_decode_error {s : State} {cmd : Nat} {rest : List HostEvent} {e : DecodeError}
    (hport : s.port = .command cmd :: rest) (hdecode : decode s.lenW cmd = .error e) :
    step s = .next (reject { s with port := rest }) := by
  simp only [step, nextEvent_cons hport, hdecode]

/-- Settles O30: a command completes by `exec_total`, and `exec_rejection_cases` says which of the two ways; a word
without an operation is rejected by `step_of_decode_error`. -/
theorem rejectedExactlyAsListed : Obligations.RejectedExactlyAsListed := by
  refine ⟨fun i s => ?_, fun _ _ _ _ => step_of_decode_error⟩
  obtain ⟨t, h⟩ := exec_total i s
  refine ⟨t, h, ?_⟩
  obtain ⟨hno, hrej⟩ | ⟨hyes, rfl⟩ := exec_rejection_cases h
  · simp [hno, hrej]
  · exact ⟨iff_of_true rfl hyes, fun _ => rfl⟩

/-! #### Progress -/

/-- Settles O11: with nothing waiting the state holds; a command word completes by `exec_total` or is rejected; every
other event has its effect. -/
theorem everyStepCompletes : Obligations.EveryStepCompletes := by
  intro s
  cases hport : s.port with
  | nil =>
    rw [step, nextEvent_nil hport]
    exact ⟨s, rfl⟩
  | cons ev rest =>
    cases ev with
    | command cmd =>
      cases hdecode : decode s.lenW cmd with
      | ok i =>
        rw [stepRunsDecodedInstruction s cmd rest i hport hdecode]
        exact exec_total i { s with port := rest }
      | error e => exact ⟨_, step_of_decode_error hport hdecode⟩
    | rst | emptyShares | emptyOut =>
      rw [step, nextEvent_cons hport]
      exact ⟨_, rfl⟩

end Sys2Proof.Machine

/-! ### Exceptions: what a fault records, what it leaves, and how long it stays -/

namespace Sys2Proof.Machine

/-! #### The length checks of `DEC.START` -/

/-- The lowest lane with a property (R116). -/
theorem find?_allLanes_eq_some {p : Fin 4 → Bool} {j : Fin 4} :
    allLanes.find? p = some j ↔ p j = true ∧ ∀ i < j, p i = false := by
  rw [show allLanes = List.finRange 4 from rfl, ← Fin.find?_eq_find?_finRange, Fin.find?_eq_some_iff]

/-- The reference lane is the lowest enabled one (R116). -/
theorem refLane_eq {mask : BitVec 4} {r : Fin 4} (hr : mask.getLsbD r.val = true)
    (hlow : ∀ i < r, mask.getLsbD i.val = false) : refLane mask = r := by
  have hfind := find?_allLanes_eq_some.mpr ⟨hr, hlow⟩
  rw [refLane, enabledLanes, List.headD_eq_head?_getD, List.head?_filter, hfind]
  rfl

/-- The lowest enabled lane whose length differs from the reference lane's (R116, check 2). -/
theorem differingLane_eq_some {mask : BitVec 4} {len : Quad Nat} {j : Fin 4} (hj : mask.getLsbD j.val = true)
    (hne : len.get j ≠ len.get (refLane mask))
    (hlow : ∀ i < j, mask.getLsbD i.val = true → len.get i = len.get (refLane mask)) : differingLane mask len = some j := by
  rw [differingLane, enabledLanes, List.find?_filter, find?_allLanes_eq_some]
  exact ⟨by simpa [hj] using hne, fun i hi => by simpa using hlow i hi⟩

/-- `DEC.START` with lanes of different lengths (R116, check 2). -/
theorem exec_decStart_of_unequal {s : State} {mask : BitVec 4} {len : Quad Nat} {j : Fin 4} (hp : 3 ≤ popcount mask)
    (hj : differingLane mask len = some j) :
    exec (.decStart mask len) s
      = .next (raiseError (unequalLengths (len.get (refLane mask)) (len.get j) j) (latchMask mask s)) := by
  simp only [exec, execDecStart, startFault, if_neg (Nat.not_lt.mpr hp), hj]

/-- `DEC.START` with one odd common length (R116, check 3). -/
theorem exec_decStart_of_odd {s : State} {mask : BitVec 4} {len : Quad Nat} (hp : 3 ≤ popcount mask)
    (hlen : differingLane mask len = none) (hodd : len.get (refLane mask) % 2 = 1) :
    exec (.decStart mask len) s
      = .next (raiseError (oddLength (len.get (refLane mask)) (refLane mask)) (latchMask mask s)) := by
  simp only [exec, execDecStart, startFault, if_neg (Nat.not_lt.mpr hp), hlen, if_pos hodd]

/-- Settles O19: `r` is the reference lane and `j` the lane that `differingLane` finds. -/
theorem decStartUnequalLengths : Obligations.DecStartUnequalLengths := by
  intro s mask len n r j hn hp hr hlowest hj hne hlow
  rw [← popcount_eq_sum] at hn
  subst hn
  obtain rfl := refLane_eq hr hlowest
  exact exec_decStart_of_unequal hp (differingLane_eq_some hj hne hlow)

/-- Settles O20: `r` is the reference lane, and no lane differs from it. -/
theorem decStartOddLength : Obligations.DecStartOddLength := by
  intro s mask len n r hn hp hr hlowest hlen hodd
  rw [← popcount_eq_sum] at hn
  subst hn
  obtain rfl := refLane_eq hr hlowest
  exact exec_decStart_of_odd hp ((differingLane_eq_none mask len).mpr hlen) hodd

/-! #### What a fault leaves -/

/-- Each fault of `DEC.START` has one of its two codes and leaves the fields of `CORRUPTED_INPUT` 0 (R151 to R153). -/
theorem startFault_fields {lenW : Nat} {mask : BitVec 4} {len : Quad Nat} {e : ErrorRegs}
    (h : startFault lenW mask len = some e) :
    e.epos = 0 ∧ e.esame = 0 ∧ (e.ecode = .insufficientShares ∨ e.ecode = .lengthMismatch) := by
  obtain ⟨-, hf⟩ | ⟨-, j, -, hf⟩ | ⟨-, -, -, hf⟩ | ⟨-, -, -, hf⟩ := startFault_cases lenW mask len <;>
    rw [h] at hf <;> cases hf
  · exact ⟨rfl, rfl, .inl rfl⟩
  · exact ⟨rfl, rfl, .inr rfl⟩
  · exact ⟨rfl, rfl, .inr rfl⟩

/-- A `DEC.START` that passes its checks leaves the decoder in `RUN` or `DONE` (R116). -/
theorem openDecode_state_ne_fault (L : Nat) (s : State) : (openDecode L s).dec.state ≠ .fault := by
  rw [openDecode_dec]
  dsimp only
  split <;> decide

/-- A `DEC.START` that ends in `FAULT` raised it in one of its checks (R116, R157). -/
theorem execDecStart_of_fault {mask : BitVec 4} {len : Quad Nat} {s t : State} (h : execDecStart mask len s = .next t)
    (hfault : t.dec.state = .fault) :
    ∃ e, startFault s.lenW mask len = some e ∧ t = raiseError e (latchMask mask s) := by
  obtain hraise | ⟨-, rfl⟩ := execDecStart_cases h
  · exact hraise
  · exact absurd hfault (openDecode_state_ne_fault _ _)

/-- A `DEC.WORD` that is accepted and ends in `FAULT` raised `CORRUPTED_INPUT` (R117, R157). -/
theorem execDecWord_of_fault {w : Quad ShareWord} {s t : State} (h : execDecWord w s = .next t)
    (hfault : t.dec.state = .fault) (hrej : t.rej = false) :
    ∃ position count, t = raiseError (corruptedInput position count) s := by
  obtain ⟨-, k, -, rfl⟩ | ⟨-, -, rfl⟩ | ⟨-, rfl⟩ := execDecWord_cases h
  · exact ⟨_, _, rfl⟩
  · exact absurd hfault (advanceDecode_state_ne_fault _ s)
  · cases hrej

/-- Settles O29: either command ends as its fault entry leaves it; `DEC.ABORT` ends in `IDLE`. -/
theorem faultEntryEffects : Obligations.FaultEntryEffects := by
  intro i s t h hfault hrej hi hnop
  obtain rfl | ⟨mask, len, rfl⟩ | ⟨w, rfl⟩ | rfl := (isEnc_eq_false_iff i).mp hi
  · exact absurd rfl hnop
  · obtain ⟨e, he, rfl⟩ := execDecStart_of_fault h hfault
    exact ⟨rfl, rfl, rfl, .inl ⟨mask, len, rfl, rfl, popcount_toNat mask, rfl, rfl, startFault_fields he⟩⟩
  · obtain ⟨position, count, rfl⟩ := execDecWord_of_fault h hfault hrej
    exact ⟨rfl, rfl, rfl, .inr ⟨w, rfl, rfl, rfl, rfl, rfl, rfl, rfl, rfl, rfl, rfl⟩⟩
  · cases h
    cases hfault

/-! #### How long a fault stays -/

/-- In `FAULT` every command but `DEC.START` and `DEC.ABORT` keeps the decoder's registers: those of the encoder do not
touch them, `DEC.NOP` changes none, and `DEC.WORD` is rejected (R159). -/
theorem exec_cases_of_fault {i : Instr} {s t : State} (hfault : s.dec.state = .fault) (h : exec i s = .next t) :
    t.dec = s.dec ∨ i = .decAbort ∨ ∃ mask len, i = .decStart mask len := by
  cases hi : isEnc i with
  | true =>
    obtain ⟨hdec, -⟩ := exec_enc_frame hi h
    exact .inl hdec
  | false =>
    obtain rfl | hstart | ⟨w, rfl⟩ | habort := (isEnc_eq_false_iff i).mp hi
    · cases h
      exact .inl rfl
    · exact .inr (.inr hstart)
    · have hrun : s.dec.state ≠ .run := by simp [hfault]
      obtain ⟨hr, -⟩ | ⟨hr, -⟩ | ⟨-, rfl⟩ := execDecWord_cases h
      · exact absurd hr hrun
      · exact absurd hr hrun
      · exact .inl rfl
    · exact .inr (.inl habort)

/-- Settles O34: a command keeps the decoder or is one of the two by `exec_cases_of_fault`; of the other events reset alone
touches its registers. -/
theorem faultIsSticky : Obligations.FaultIsSticky := by
  intro s t hfault h
  obtain ⟨-, rfl⟩ | ⟨rest, cmd, i, hport, hd, he⟩ | ⟨rest, cmd, e, -, -, rfl⟩ | ⟨rest, hport, -⟩ | ⟨rest, -, rfl⟩
    | ⟨rest, -, rfl⟩ := step_cases h
  case inr.inl =>
    obtain hdec | rfl | ⟨mask, len, rfl⟩ := exec_cases_of_fault (s := { s with port := rest }) hfault he
    · exact .inl hdec
    · exact .inr (.inr ⟨cmd, rest, hport, .inl hd⟩)
    · exact .inr (.inr ⟨cmd, rest, hport, .inr ⟨mask, len, hd⟩⟩)
  case inr.inr.inr.inl => exact .inr (.inl ⟨rest, hport⟩)
  all_goals exact .inl rfl

/-- Settles O10: with nothing waiting the state holds, and emptying a sink writes that sink alone. -/
theorem otherEventsHoldRegisters : Obligations.OtherEventsHoldRegisters := by
  intro s rest
  refine ⟨fun hport => ?_, fun hport => ?_, fun hport => ?_⟩
  · rw [step, nextEvent_nil hport]
  · rw [step, nextEvent_cons hport]
    rfl
  · rw [step, nextEvent_cons hport]
    rfl

end Sys2Proof.Machine

/-! ### Reset -/

namespace Sys2Proof.Machine

/-- A step at `rst` (R170). -/
theorem step_of_rst {s : State} {rest : List HostEvent} (hport : s.port = .rst :: rest) :
    step s = .next (applyReset { s with port := rest }) := by
  rw [step, nextEvent_cons hport]

/-- The registers of both units after `ENC.ABORT` and then `DEC.ABORT` (R97, R118): each clears its own unit and
`DEC.ABORT` keeps the encoder. -/
theorem exec_aborts_clear_both_units (s : State) :
    ∃ u v, exec .encAbort s = .next u ∧ exec .decAbort u = .next v ∧ v.enc = EncRegs.zero ∧ v.dec = DecRegs.zero :=
  ⟨_, _, encAbortClears.2 s, decAbortClears.2 _, rfl, rfl⟩

/-- Settles O9: reset clears both units and touches no stream and no parameter, and the two aborts leave the same registers
by `exec_aborts_clear_both_units`. -/
theorem resetInputClearsBothUnits : Obligations.ResetInputClearsBothUnits := by
  intro s rest hport
  obtain ⟨u, v, hu, hv, henc, hdec⟩ := exec_aborts_clear_both_units s
  exact ⟨applyReset { s with port := rest }, u, v, step_of_rst hport, rfl, rfl, rfl, rfl, rfl, rfl, rfl, hu, hv, henc, hdec⟩

end Sys2Proof.Machine

/-! ### The command words of the test vectors -/

namespace Sys2Proof

/-- A word that is the encoding of a well-formed instruction decodes to it. -/
theorem decode_of_eq_encode {lenW cmd : Nat} {i : Instr} (hwf : i.wellFormed lenW = true) (hcmd : cmd = encode lenW i) :
    decode lenW cmd = .ok i := by
  rw [hcmd, decode_encode hwf]

/-- Settles O6: each word that carries operands is the encoding of its instruction, the bits its format ignores 0; the
others are decoded by their code alone (R69). -/
theorem vectorWordsDecode : Obligations.VectorWordsDecode := by
  have formatN {cmd : Nat} {i : Instr} (hi : i ∈ [Instr.encNop, .encStart, .encEnd, .encAbort, .decNop, .decAbort])
      (hc : field cmd 0 4 = opcode i) : decode 64 cmd = .ok i := (formatFields 64 cmd).left i hi hc
  refine ⟨?formatB, ?formatS, ?formatS', ?formatW, ?_, ?_, ?_, ?_, ?_, ?_⟩
  case formatB | formatS | formatS' | formatW => exact decode_of_eq_encode (by decide) (by decide)
  all_goals exact formatN (by decide) (by decide)

end Sys2Proof
